-- ==== Sys2Proof/Word.lean ====
section
/-!
DEFINITION. The word types of the block (spec/00_scope.md R5, R6, R8): command words, glyph row bytes,
the 2048-bit vector of all cells, and texts.
-/

namespace Sys2Proof

/-- A 32-bit command word `cmd[31:0]`, bit 0 least significant (R8, R60). -/
abbrev Word := BitVec 32

/-- A glyph row, or one byte of the bulk vector: 8 bits (R5, R43). -/
abbrev Byte := BitVec 8

/-- All 2048 cells: bit `i` is cell `i` (R20, R43), 1 is on, 0 is off (R21). -/
abbrev Grid := BitVec 2048

/-- A text: a finite sequence of Unicode scalar values (R66). -/
abbrev Text := List Char

end Sys2Proof
end

