-- ==== Sys2Proof/Config.lean ====
section
/-!
DEFINITION. What an implementation fixes (spec/00_scope.md R5, R6) and the parameters the spec leaves open
(R142, R124), as constants without a body: nothing can be proved of their values.
-/

namespace Sys2Proof.Config

/-- `COLUMNS`: cells per row (R5). -/
def columns : Nat := 64

/-- `ROWS` (R5). -/
def rows : Nat := 32

/-- `CELLS = COLUMNS * ROWS`, the length of the cell sequence (R5). -/
def cells : Nat := 2048

/-- `GLYPH_COUNT`: entries of the glyph table (R5). -/
def glyphCount : Nat := 16

/-- `GLYPH_ROWS`: rows per glyph (R5). -/
def glyphRows : Nat := 5

/-- `GLYPH_WIDTH`: pixels per glyph row (R5). -/
def glyphWidth : Nat := 4

/-- `COORD_BITS`: the width of the fields `x` and `y` of a command word (R6, R61). -/
def coordBits : Nat := 12

/-- `SYM_BITS`: the width of the field `sym` (R6, R62). -/
def symBits : Nat := 8

/-- `BLANK`: the one-character string U+0020 (R124). -/
def blank : Text := [' ']

/-- `LINE_BREAK`: the one-character string U+000A (R124). -/
def lineBreak : Text := ['\n']

/-- The rows of the fifteen glyph entries other than 'A' (R142, D11, U7): OPEN, a free constant of the
entry number and the row number. DESIGN CHOICE (safe), log entry 2. -/
opaque openGlyphRow : Nat → Nat → Byte

/-- The string from which `ON_GLYPH` is taken (R124, D12, U8): OPEN, a free constant. DESIGN CHOICE (safe), log entry 3. -/
opaque openOnGlyph : Text

/-- `SEP`, the separator after every rendered cell (R124, D12, U8): OPEN, a free constant. DESIGN CHOICE (safe), log entry 3. -/
opaque sep : Text

end Sys2Proof.Config
end

