-- ==== Sys2Proof/Syntax.lean ====
section
/-!
DEFINITION. The operations of the block, one constructor per row of spec/opcode_table.json, and the four
ports that accept them (spec/30_encoding.md R65, R66).
-/

namespace Sys2Proof

/-- The four command ports (R66). -/
inductive Port where
  /-- The address mapper. -/
  | m
  /-- The write port of the cell store. -/
  | w
  /-- The read port of the cell store. -/
  | r
  /-- The glyph table. -/
  | g
  deriving DecidableEq, Repr

/-- The eight operations (R65). A coordinate is any pair of natural numbers (R24, R64, R89), a symbol any
character code (R72); `WellFormed.lean` says which of them a command word can carry. -/
inductive Instr where
  /-- `NEW`: begin a session with every cell off (R100). -/
  | new
  /-- `SETP x, y, v`: write one pixel (R101). -/
  | setp (x y : Nat) (v : Bool)
  /-- `GETP x, y`: read one pixel (R102). -/
  | getp (x y : Nat)
  /-- `GLYPH sym`: look up the rows of a symbol (R144). -/
  | glyph (sym : Nat)
  /-- `GETS`: read the whole cell sequence (R120). -/
  | gets
  /-- `PUTS`: replace the whole cell sequence by the input `w_data` (R121). -/
  | puts
  /-- `REND`: render the state as text (R122). -/
  | rend
  /-- `MAP x, y`: the cell index of a coordinate (R87). -/
  | map (x y : Nat)
  deriving DecidableEq, Repr

end Sys2Proof
end

