-- ==== Sys2Proof/WellFormed.lean ====
section
/-!
DEFINITION. Which operations a command word can carry (spec/30_encoding.md R61, R62, R64): a coordinate below
`2^12`, a symbol below `2^8`. The abstract operations themselves take every natural number.
-/

namespace Sys2Proof

/-- A coordinate that fits the 12-bit fields `x` and `y` (R61, R64). -/
def coordFits (x y : Nat) : Bool := x < 2 ^ Config.coordBits && y < 2 ^ Config.coordBits

/-- A symbol that fits the 8-bit field `sym` (R62, R72). -/
def symFits (sym : Nat) : Bool := sym < 2 ^ Config.symBits

/-- The operation can be carried by a command word with its operands at face value. -/
def Instr.wf : Instr → Bool
  | .new => true
  | .setp x y _ => coordFits x y
  | .getp x y => coordFits x y
  | .glyph sym => symFits sym
  | .gets => true
  | .puts => true
  | .rend => true
  | .map x y => coordFits x y

end Sys2Proof
end

