-- ==== Sys2Proof/Decode.lean ====
section
/-!
DEFINITION. The command words (spec/30_encoding.md R60 to R67): fields, decoder, encoder, the opcode map
with its match and mask, and which port accepts which operation.
-/

namespace Sys2Proof

/-! ### Fields -/

/-- `op = cmd[31:28]` (R60). -/
def opOf (w : Word) : BitVec 4 := w.extractLsb' 28 4

/-- `rsv = cmd[27:25]` of format P (R61). -/
def rsvP (w : Word) : BitVec 3 := w.extractLsb' 25 3

/-- `v = cmd[24]` of format P (R61). -/
def vOf (w : Word) : Bool := w.getLsbD 24

/-- `y = cmd[23:12]` of format P, at its face value (R61, R64). -/
def yOf (w : Word) : Nat := (w.extractLsb' 12 12).toNat

/-- `x = cmd[11:0]` of format P, at its face value (R61, R64). -/
def xOf (w : Word) : Nat := (w.extractLsb' 0 12).toNat

/-- `rsv = cmd[27:8]` of format G (R62). -/
def rsvG (w : Word) : BitVec 20 := w.extractLsb' 8 20

/-- `sym = cmd[7:0]` of format G (R62). -/
def symOf (w : Word) : Nat := (w.extractLsb' 0 8).toNat

/-- `rsv = cmd[27:0]` of format N (R63). -/
def rsvN (w : Word) : BitVec 28 := w.extractLsb' 0 28

/-! ### Decoding -/

/-- Why a command word is reserved (R67). -/
inductive Reserved where
  /-- `op` is 0x0 or 0x9 to 0xF. -/
  | opcode
  /-- A `rsv` field of the word's format is not all zero. -/
  | field
  /-- It is `GETP` or `MAP` with `v = 1`. -/
  | valueBit
  /-- The operation does not belong to the port the word is presented on. -/
  | wrongPort
  deriving DecidableEq, Repr

/-- A word of format N (R63). -/
def decodeN (w : Word) (i : Instr) : Except Reserved Instr :=
  if rsvN w = 0#28 then .ok i else .error .field

/-- A word of format P that uses `v` (R61). -/
def decodeP (w : Word) (mk : Nat → Nat → Bool → Instr) : Except Reserved Instr :=
  if rsvP w = 0#3 then .ok (mk (xOf w) (yOf w) (vOf w)) else .error .field

/-- A word of format P in which `v` must be 0 (R61). -/
def decodePNoValue (w : Word) (mk : Nat → Nat → Instr) : Except Reserved Instr :=
  if rsvP w = 0#3 then (if vOf w then .error .valueBit else .ok (mk (xOf w) (yOf w)))
  else .error .field

/-- A word of format G (R62). -/
def decodeG (w : Word) : Except Reserved Instr :=
  if rsvG w = 0#20 then .ok (.glyph (symOf w)) else .error .field

/-- The operation of a command word, or why the word is reserved on every port (R65, R67). -/
def decode (w : Word) : Except Reserved Instr :=
  match (opOf w).toNat with
  | 1 => decodeN w .new
  | 2 => decodeP w .setp
  | 3 => decodePNoValue w .getp
  | 4 => decodeG w
  | 5 => decodeN w .gets
  | 6 => decodeN w .puts
  | 7 => decodeN w .rend
  | 8 => decodePNoValue w .map
  | _ => .error .opcode

/-- The port that accepts an operation (R66). -/
def Instr.port : Instr → Port
  | .new => .w
  | .setp _ _ _ => .w
  | .getp _ _ => .r
  | .glyph _ => .g
  | .gets => .r
  | .puts => .w
  | .rend => .r
  | .map _ _ => .m

/-- The operation of a word presented on port `p`, or why it is reserved there (R66, R67). -/
def accept (p : Port) (w : Word) : Except Reserved Instr :=
  match decode w with
  | .ok i => if i.port = p then .ok i else .error .wrongPort
  | .error e => .error e

/-- The instruction read from a word whose bits are `w`, numbered as spec/opcode_table.json numbers them. A
command is one 32-bit word with no byte order (R45, R60); bits above `nbits` are 0. -/
def decodeTableWord (nbits w : Nat) : Option Instr :=
  (decode (BitVec.ofNat 32 (w % 2 ^ nbits))).toOption

/-! ### Encoding -/

/-- A word of format N (R63). -/
def encodeN (op : BitVec 4) : Word := op.setWidth 32 <<< 28

/-- A word of format P (R61); of a wider coordinate the low 12 bits are presented (R64; DEDUCED, safe, log entry 10). -/
def encodeP (op : BitVec 4) (v : Bool) (x y : Nat) : Word :=
  op.setWidth 32 <<< 28 ||| (BitVec.ofBool v).setWidth 32 <<< 24
    ||| (BitVec.ofNat 12 y).setWidth 32 <<< 12 ||| (BitVec.ofNat 12 x).setWidth 32

/-- A word of format G (R62). -/
def encodeG (op : BitVec 4) (sym : Nat) : Word :=
  op.setWidth 32 <<< 28 ||| (BitVec.ofNat 8 sym).setWidth 32

/-- The command word of an operation (R65). -/
def encode : Instr → Word
  | .new => encodeN 0x1#4
  | .setp x y v => encodeP 0x2#4 v x y
  | .getp x y => encodeP 0x3#4 false x y
  | .glyph sym => encodeG 0x4#4 sym
  | .gets => encodeN 0x5#4
  | .puts => encodeN 0x6#4
  | .rend => encodeN 0x7#4
  | .map x y => encodeP 0x8#4 false x y

/-! ### The opcode map -/

/-- The column `match` of the opcode map (R65). -/
def Instr.opMatch : Instr → Word
  | .new => 0x10000000#32
  | .setp _ _ _ => 0x20000000#32
  | .getp _ _ => 0x30000000#32
  | .glyph _ => 0x40000000#32
  | .gets => 0x50000000#32
  | .puts => 0x60000000#32
  | .rend => 0x70000000#32
  | .map _ _ => 0x80000000#32

/-- The column `mask` of the opcode map (R65). -/
def Instr.opMask : Instr → Word
  | .new => 0xFFFFFFFF#32
  | .setp _ _ _ => 0xFE000000#32
  | .getp _ _ => 0xFF000000#32
  | .glyph _ => 0xFFFFFF00#32
  | .gets => 0xFFFFFFFF#32
  | .puts => 0xFFFFFFFF#32
  | .rend => 0xFFFFFFFF#32
  | .map _ _ => 0xFF000000#32

/-- The column `mnemonic` of the opcode map (R65). -/
def Instr.mnemonic : Instr → String
  | .new => "NEW"
  | .setp _ _ _ => "SETP"
  | .getp _ _ => "GETP"
  | .glyph _ => "GLYPH"
  | .gets => "GETS"
  | .puts => "PUTS"
  | .rend => "REND"
  | .map _ _ => "MAP"

/-- The port on which a word's `op` is accepted (R65, R66). A reserved `op` belongs to no port; for it the
answer is the write port, where the word is then reserved as it would be anywhere. -/
def wordPort (w : Word) : Port :=
  match (opOf w).toNat with
  | 3 => .r
  | 4 => .g
  | 5 => .r
  | 7 => .r
  | 8 => .m
  | _ => .w

end Sys2Proof
end

