-- ==== Sys2Proof/Machine/State.lean ====
section
/-!
DEFINITION. The state of the block (spec/10_state.md R20): the 2048 cells, and beside them the block's pins
(spec/30_encoding.md R66), which are no state of the spec but have to stand somewhere: what the host presents
in the coming steps, and the responses of the last step (DESIGN CHOICE,
log entry 1). There is no state before the first reset (R184, log entry 7).
-/

namespace Sys2Proof.Machine

/-- The failure side of `SETP`'s result: it exists and has no member (R69, R161, U5). -/
inductive FbError
  deriving DecidableEq, Repr

/-- The response of port W (R68). -/
inductive WriteRsp where
  /-- An acknowledgement with no payload: `NEW`, `PUTS`. -/
  | ack
  /-- The two-sided status of `SETP` (R69). -/
  | status (st : Except FbError Unit)
  deriving DecidableEq, Repr

/-- The response of port R (R68). -/
inductive ReadRsp where
  /-- `GETP`: the cell's value. -/
  | bit (b : Bool)
  /-- `GETS`: the whole cell sequence. -/
  | cells (s : Grid)
  /-- `REND`: the text. -/
  | text (t : Text)
  deriving DecidableEq, Repr

/-- The response of port G (R68): rows or nothing. -/
inductive GlyphRsp where
  /-- The symbol has no entry; there are no rows. -/
  | notFound
  /-- The five rows of the entry, row 0 first. -/
  | found (rows : Vector Byte 5)
  deriving DecidableEq, Repr

/-- The response outputs of the four ports, each qualified by its `rsp_valid` (R66): `none` is
`rsp_valid = 0`. -/
structure Outputs where
  /-- Port M: `m_idx`. -/
  m : Option (BitVec 11)
  /-- Port W. -/
  w : Option WriteRsp
  /-- Port R. -/
  r : Option ReadRsp
  /-- Port G. -/
  g : Option GlyphRsp
  deriving DecidableEq, Repr

/-- What the host presents in one step (R48, R66): at most one command a port (`none` is `valid = 0`), the data
input of port W, and the reset input. -/
structure StepIn where
  /-- The reset input `rst`. -/
  rst : Bool
  /-- `m_valid`, `m_cmd`. -/
  mCmd : Option Word
  /-- `w_valid`, `w_cmd`. -/
  wCmd : Option Word
  /-- `r_valid`, `r_cmd`. -/
  rCmd : Option Word
  /-- `g_valid`, `g_cmd`. -/
  gCmd : Option Word
  /-- `w_data`. -/
  wData : Grid
  deriving DecidableEq, Repr

/-- The block and its pins. Only `fb` is state of the spec (R20). -/
structure State where
  /-- The 2048 cells (R20, R43): bit `i` is cell `i`. -/
  fb : Grid
  /-- The model's own: what the host will present, the next step first. Past its end the host presents
  nothing (R188). -/
  host : List StepIn
  /-- The model's own: the input `w_data` of the step in hand, which `PUTS` reads (R66, R121). -/
  wData : Grid
  /-- The model's own: the responses of the last step (R66, R68). -/
  out : Outputs
  deriving DecidableEq, Repr

/-- Why a step ends in a fault: never, the set of exceptions is empty (R160). -/
inductive Fault
  deriving DecidableEq, Repr

/-- Why a step is refused. -/
inductive Refusal where
  /-- Raised by `exec` for an operation without a meaning in this model; no arm raises it. Safe. -/
  | notModelled (mnemonic : String)
  /-- Raised by `step` where the host presents a reserved word on a port (R67), as 93_implementation_defined.md
  U1 asks of a model. Safe: nothing can be proved of what follows it. Log entry 5. -/
  | reservedWord (port : Port) (why : Reserved)
  deriving DecidableEq, Repr

/-- No response on any port: every `rsp_valid` is 0. -/
def Outputs.silent : Outputs := { m := none, w := none, r := none, g := none }

/-- A step in which the host presents nothing (R188). -/
def StepIn.idle : StepIn :=
  { rst := false, mCmd := none, wCmd := none, rCmd := none, gCmd := none, wData := 0#2048 }

/-- The block right after reset: every cell off (R31), no response given (R180); and the host presents
nothing (DESIGN CHOICE, log entry 1). -/
def State.reset : State := { fb := 0#2048, host := [], wData := 0#2048, out := Outputs.silent }

end Sys2Proof.Machine
end

