-- ==== Sys2Proof/Machine/Ops.lean ====
section
/-!
DEFINITION. The named operations over the cell store and the pins (spec/00_scope.md R9; spec/10_state.md R21,
R22; spec/20_memory.md R43, R47; spec/70_reset_and_hazards.md R180, R181). The block takes no exception
(spec/60_exceptions.md R160, R165), so there is no exception entry to model.
-/

namespace Sys2Proof.Machine

/-! ### The cell store (DESIGN CHOICE, safe, log entry 4: one 2048-bit vector) -/

/-- `MemRead(i, 1)`: the value of cell `i` (R9). -/
def memReadCell (g : Grid) (i : Nat) : Bool := g.getLsbD i

/-- `MemWrite(i, 1, v)`: cell `i` becomes `v`, every other cell keeps its value (R9, R21). -/
def memWriteCell (g : Grid) (i : Nat) (v : Bool) : Grid :=
  if v then g ||| BitVec.twoPow 2048 i else g &&& ~~~ BitVec.twoPow 2048 i

/-- `MemRead(0, 2048)`: all cells as one vector, bit `i` cell `i` (R9, R43). -/
def memReadAll (g : Grid) : Grid := g

/-- `MemWrite(0, 2048, s)`: every cell `i` becomes `s[i]` (R9, R43). -/
def memWriteAll (_ s : Grid) : Grid := s

/-- Byte `j` of the bulk vector, `s[8*j+7 : 8*j]`, cell `8*j` in its bit 0 (R43). -/
def gridByte (s : Grid) (j : Nat) : Byte := s.extractLsb' (8 * j) 8

/-- The vector in which exactly the cells of the given indices are on (R70's `{i, j, ...}`). -/
def gridOf (on : List Nat) : Grid := on.foldl (fun g i => memWriteCell g i true) 0#2048

/-! ### The state's cells and the response pins -/

/-- Replace the cells, nothing else. -/
def State.setFb (s : State) (g : Grid) : State := { s with fb := g }

/-- Give port M its response. -/
def State.respondM (s : State) (idx : BitVec 11) : State := { s with out := { s.out with m := some idx } }

/-- Give port W its response. -/
def State.respondW (s : State) (a : WriteRsp) : State := { s with out := { s.out with w := some a } }

/-- Give port R its response. -/
def State.respondR (s : State) (a : ReadRsp) : State := { s with out := { s.out with r := some a } }

/-- Give port G its response. -/
def State.respondG (s : State) (a : GlyphRsp) : State := { s with out := { s.out with g := some a } }

/-! ### Steps -/

/-- The command word on a port, when its `valid` bit is 1 (R66). -/
def StepIn.cmdOn (inp : StepIn) : Port → Option Word
  | .m => inp.mCmd
  | .w => inp.wCmd
  | .r => inp.rCmd
  | .g => inp.gCmd

/-- Present a command word on a port, or none (`valid = 0`); the other pins as they are (R66). -/
def StepIn.setCmd (inp : StepIn) (c : Option Word) : Port → StepIn
  | .m => { inp with mCmd := c }
  | .w => { inp with wCmd := c }
  | .r => { inp with rCmd := c }
  | .g => { inp with gCmd := c }

/-- A step with one command: the word on its port, `w_data` beside it, every other `valid` and `rst` 0. -/
def StepIn.single (p : Port) (w : Word) (data : Grid) : StepIn :=
  { StepIn.idle with wData := data }.setCmd (some w) p

/-- The step in which the host presents one operation, on the port that accepts it (R66). -/
def StepIn.ofInstr (i : Instr) (data : Grid) : StepIn := StepIn.single i.port (encode i) data

/-- What the host presents in the coming step; past the end of `host` it presents nothing (R188;
DESIGN CHOICE, log entry 1). -/
def State.nextIn (s : State) : StepIn := s.host.headD StepIn.idle

/-- The state in which the commands of the coming step find the block: what the host presents is taken from
`host`, `w_data` is on its pins, and no response of an earlier step is held any more (R30, R48). -/
def State.beginStep (s : State) : State :=
  { fb := s.fb, host := s.host.tail, wData := s.nextIn.wData, out := Outputs.silent }

/-- A reset of the cell store: every cell off, as one write (R31, R181). Shared by `rst` and `NEW` (R180). -/
def State.clearCells (s : State) : State := s.setFb (memWriteAll s.fb 0#2048)

/-- One outcome after another: what is done next is done only if the first answers a next state. -/
def andThen (o : Host.Outcome State Fault Refusal) (f : State → Host.Outcome State Fault Refusal) :
    Host.Outcome State Fault Refusal :=
  match o with
  | .next s => f s
  | .fault e => .fault e
  | .refused e => .refused e

end Sys2Proof.Machine
end

