-- ==== Sys2Proof/Machine/Operands.lean ====
section
/-!
DEFINITION. The operand forms: a coordinate, through the address mapper (spec/40_address_mapper.md R80, R82), and a
symbol, through the glyph keys (spec/43_glyph_table.md R143).
-/

namespace Sys2Proof.Machine

/-! ### Coordinates -/

/-- `wrapped_x = x mod COLUMNS` (R80). -/
def wrapX (x : Nat) : Nat := x % Config.columns

/-- `wrapped_y = y mod ROWS` (R80). -/
def wrapY (y : Nat) : Nat := y % Config.rows

/-- The address mapper `Index(x, y)` (R80): each coordinate is reduced first, then the row is multiplied and
the column added (R85). -/
def index (x y : Nat) : Nat := wrapX x + wrapY y * Config.columns

/-- The 11 bits of a cell index on `m_idx` (R68, R87). -/
def indexBits (x y : Nat) : BitVec 11 := BitVec.ofNat 11 (index x y)

/-- The column of cell `i` (R22). -/
def columnOf (i : Nat) : Nat := i % Config.columns

/-- The row of cell `i` (R22). -/
def rowOf (i : Nat) : Nat := i / Config.columns

/-- The cell at column `c` and row `r` (R22). -/
def cellAt (c r : Nat) : Nat := c + Config.columns * r

/-! ### Symbols -/

/-- `Key(sym)`: the entry number of a symbol, given by its character code, or none (R143): '0' to '9' are 0x30
to 0x39, 'A' to 'F' are 0x41 to 0x46 (R72). -/
def key (sym : Nat) : Option Nat :=
  if 0x30 ≤ sym ∧ sym ≤ 0x39 then some (sym - 0x30)
  else if 0x41 ≤ sym ∧ sym ≤ 0x46 then some (sym - 0x41 + 10)
  else none

end Sys2Proof.Machine
end

