-- ==== Sys2Proof/Machine/Render.lean ====
section
/-!
DEFINITION. The text of a cell vector (spec/42_bulk_state_and_render.md R123) and its parameters (R124).
-/

namespace Sys2Proof.Machine

/-- A string is admitted as `ON_GLYPH` when it is non-empty and differs from `BLANK` (R124). -/
def onGlyphOk (t : Text) : Bool := t ≠ [] && t ≠ Config.blank

/-- `ON_GLYPH` (R124): the open constant where it is admitted. Every admitted string is so obtained, and no
other; where the open constant is not admitted the example's "#" (R122) stands in.
DESIGN CHOICE (safe), log entry 3. -/
def onGlyph : Text := if onGlyphOk Config.openOnGlyph then Config.openOnGlyph else ['#']

/-- `Cell(b)`: the "on" string or the blank, and in both cases the separator (R123). -/
def cellText (on sep : Text) (b : Bool) : Text := (if b then on else Config.blank) ++ sep

/-- `Line(s, r)`: the cells of row `r` by increasing column, then the line break (R123). -/
def lineText (on sep : Text) (s : Grid) (r : Nat) : Text :=
  (List.range Config.columns).flatMap (fun c => cellText on sep (memReadCell s (cellAt c r)))
    ++ Config.lineBreak

/-- `Render(s)` for given `ON_GLYPH` and `SEP`: the lines of rows 0 to 31 (R123). -/
def renderWith (on sep : Text) (s : Grid) : Text :=
  (List.range Config.rows).flatMap (lineText on sep s)

/-- `Render(s)` with the model's parameters (R123, R124). -/
def render (s : Grid) : Text := renderWith onGlyph Config.sep s

end Sys2Proof.Machine
end

