-- ==== Sys2Proof/Machine/Bulk.lean ====
section
/-!
DEFINITION. The meanings of `GETS`, `PUTS` and `REND` (spec/42_bulk_state_and_render.md R120, R121, R122).
-/

namespace Sys2Proof.Machine

/-- `GETS`: answer all cells, a copy taken in this step (R120). -/
def execGets (s : State) : Host.Outcome State Fault Refusal :=
  .next (s.respondR (.cells (memReadAll s.fb)))

/-- `PUTS`: every cell takes its value from the input `w_data`; an acknowledgement (R121). -/
def execPuts (s : State) : Host.Outcome State Fault Refusal :=
  .next ((s.setFb (memWriteAll s.fb s.wData)).respondW .ack)

/-- `REND`: answer the text of all cells (R122). -/
def execRend (s : State) : Host.Outcome State Fault Refusal :=
  .next (s.respondR (.text (render (memReadAll s.fb))))

end Sys2Proof.Machine
end

