-- ==== Sys2Proof/Machine/Glyph.lean ====
section
/-!
DEFINITION. The glyph table and the meaning of `GLYPH` (spec/43_glyph_table.md R140 to R144).
-/

namespace Sys2Proof.Machine

/-- The rows of entry 'A' (R142), the one entry the source gives. -/
def glyphRowA (r : Nat) : Byte := [0xF0#8, 0x90#8, 0xF0#8, 0x90#8, 0x90#8].getD r 0

/-- A glyph table: `RomRead(k, r)` is row `r` of entry `k` (R140). -/
abbrev GlyphRom := Nat → Nat → Byte

/-- `GLYPH_ROM`, the model's parameter: entry 'A' as the source gives it, every other entry open (R142, U7).
DESIGN CHOICE (safe), log entry 2. -/
def glyphRom : GlyphRom := fun k r => if k = 10 then glyphRowA r else Config.openGlyphRow k r

/-- The default table of R142, entry by entry: from general knowledge but for 'A' (G1). No meaning reads it; a
statement that wants a particular table names it. -/
def defaultRomRows : List (List Byte) :=
  [[0xF0#8, 0x90#8, 0x90#8, 0x90#8, 0xF0#8], [0x20#8, 0x60#8, 0x20#8, 0x20#8, 0x70#8],
   [0xF0#8, 0x10#8, 0xF0#8, 0x80#8, 0xF0#8], [0xF0#8, 0x10#8, 0xF0#8, 0x10#8, 0xF0#8],
   [0x90#8, 0x90#8, 0xF0#8, 0x10#8, 0x10#8], [0xF0#8, 0x80#8, 0xF0#8, 0x10#8, 0xF0#8],
   [0xF0#8, 0x80#8, 0xF0#8, 0x90#8, 0xF0#8], [0xF0#8, 0x10#8, 0x20#8, 0x40#8, 0x40#8],
   [0xF0#8, 0x90#8, 0xF0#8, 0x90#8, 0xF0#8], [0xF0#8, 0x90#8, 0xF0#8, 0x10#8, 0xF0#8],
   [0xF0#8, 0x90#8, 0xF0#8, 0x90#8, 0x90#8], [0xE0#8, 0x90#8, 0xE0#8, 0x90#8, 0xE0#8],
   [0xF0#8, 0x80#8, 0x80#8, 0x80#8, 0xF0#8], [0xE0#8, 0x90#8, 0x90#8, 0x90#8, 0xE0#8],
   [0xF0#8, 0x80#8, 0xF0#8, 0x80#8, 0xF0#8], [0xF0#8, 0x80#8, 0xF0#8, 0x80#8, 0x80#8]]

/-- The default table of R142 as a table. -/
def defaultRom : GlyphRom := fun k r => (defaultRomRows.getD k []).getD r 0

/-- The five rows of entry `k`, row 0 first (R140, R144). -/
def romEntry (rom : GlyphRom) (k : Nat) : Vector Byte 5 :=
  #v[rom k 0, rom k 1, rom k 2, rom k 3, rom k 4]

/-- `lookup(symbol)`: the rows of the symbol's entry, or not found (R143, R144). -/
def lookup (rom : GlyphRom) (sym : Nat) : GlyphRsp :=
  match key sym with
  | none => .notFound
  | some k => .found (romEntry rom k)

/-- The sprite bit of a glyph row at column `j` of 0 to 3: bit 7 is the leftmost pixel (R44, R141). -/
def rowPixel (row : Byte) (j : Nat) : Bool := row.getLsbD (7 - j)

/-- `GLYPH sym`: answer the rows of the symbol, or not found; `fb` is not touched (R144). -/
def execGlyph (sym : Nat) (s : State) : Host.Outcome State Fault Refusal :=
  .next (s.respondG (lookup glyphRom sym))

end Sys2Proof.Machine
end

