-- ==== Sys2Proof/Machine/Mapper.lean ====
section
/-!
DEFINITION. The meaning of `MAP` (spec/40_address_mapper.md R87).
-/

namespace Sys2Proof.Machine

/-- `MAP x, y`: answer `Index(x, y)`; no state is read or written (R87). -/
def execMap (x y : Nat) (s : State) : Host.Outcome State Fault Refusal :=
  .next (s.respondM (indexBits x y))

end Sys2Proof.Machine
end

