-- ==== Sys2Proof/Machine/Flags.lean ====
section
/-!
DEFINITION. The block has no flag and no condition code (spec/10_state.md R27), no operation computes one. Its one
status-like value is the result of `SETP` (spec/30_encoding.md R69), which is not held.
-/

namespace Sys2Proof.Machine

/-- The status `OK`, the success side of the two-sided result (R69, R101). -/
def statusOk : Except FbError Unit := .ok ()

/-- The code of a status on `w_status[7:0]` (R69): `OK = 0x00`; the failure side has no member, hence no
code. -/
def statusCode : Except FbError Unit → BitVec 8
  | .ok () => 0x00#8
  | .error e => nomatch e

end Sys2Proof.Machine
end

