-- ==== Sys2Proof/Machine/Pixel.lean ====
section
/-!
DEFINITION. The meanings of `NEW`, `SETP` and `GETP` (spec/41_pixel_access.md R100, R101, R102).
-/

namespace Sys2Proof.Machine

/-- `NEW`: every cell off; an acknowledgement (R100). -/
def execNew (s : State) : Host.Outcome State Fault Refusal :=
  .next (s.clearCells.respondW .ack)

/-- `SETP x, y, v`: cell `Index(x, y)` becomes `v`, whatever it was; the status is `OK` (R101). -/
def execSetp (x y : Nat) (v : Bool) (s : State) : Host.Outcome State Fault Refusal :=
  .next ((s.setFb (memWriteCell s.fb (index x y) v)).respondW (.status statusOk))

/-- `GETP x, y`: answer cell `Index(x, y)` (R102). -/
def execGetp (x y : Nat) (s : State) : Host.Outcome State Fault Refusal :=
  .next (s.respondR (.bit (memReadCell s.fb (index x y))))

end Sys2Proof.Machine
end

