-- ==== Sys2Proof/Machine/Dispatch.lean ====
section
/-!
DEFINITION. One arm per operation (spec/30_encoding.md R65): its effect on the cells and its response.
-/

namespace Sys2Proof.Machine

def exec (i : Instr) (s : State) : Host.Outcome State Fault Refusal :=
  match i with
  | .new => Sys2Proof.Machine.execNew s
  | .setp x y v => Sys2Proof.Machine.execSetp x y v s
  | .getp x y => Sys2Proof.Machine.execGetp x y s
  | .glyph sym => Sys2Proof.Machine.execGlyph sym s
  | .gets => Sys2Proof.Machine.execGets s
  | .puts => Sys2Proof.Machine.execPuts s
  | .rend => Sys2Proof.Machine.execRend s
  | .map x y => Sys2Proof.Machine.execMap x y s

end Sys2Proof.Machine
end

