-- ==== Sys2Proof/Machine/Ports.lean ====
section
/-!
DEFINITION. One step of the block over its four ports (spec/20_memory.md R48; spec/30_encoding.md R66, R67;
spec/70_reset_and_hazards.md R180).
-/

namespace Sys2Proof.Machine

/-- The operation executed for what is presented on port `p`: none where nothing is presented, and none for a
word reserved there, which changes no state and gets no response (R67). -/
def acceptedOn (p : Port) : Option Word → Option Instr
  | none => none
  | some w => (accept p w).toOption

/-- Why what is presented on port `p` is reserved there, if it is (R67). -/
def reservedOn (p : Port) : Option Word → Option Reserved
  | none => none
  | some w =>
    match accept p w with
    | .ok _ => none
    | .error e => some e

/-- The first reserved word the host presents in this step, in the order M, W, R, G (R67). -/
def StepIn.firstReserved (inp : StepIn) : Option (Port × Reserved) :=
  [Port.m, .w, .r, .g].findSome? fun p => (reservedOn p (inp.cmdOn p)).map fun e => (p, e)

/-- Execute what is presented on one port, in the state it finds. -/
def runPort (inp : StepIn) (p : Port) (s : State) : Host.Outcome State Fault Refusal :=
  match acceptedOn p (inp.cmdOn p) with
  | none => .next s
  | some i => exec i s

/-- The block's transition in a step without reset (R48; UNVERIFIED, log entry 6): the R command first, on the state before the
step's write; M and G, which neither read nor write the cells; then W. -/
def transition (inp : StepIn) (s : State) : Host.Outcome State Fault Refusal :=
  andThen (andThen (andThen (runPort inp .r s) (runPort inp .m)) (runPort inp .g)) (runPort inp .w)

/-- One step, from the state in which the pins carry the step's inputs. With `rst` asserted the reset is
performed and nothing else (R180). A presented reserved word is refused (U1; DESIGN CHOICE, safe, log entry 5). -/
def runStep (inp : StepIn) (s : State) : Host.Outcome State Fault Refusal :=
  if inp.rst then .next s.clearCells
  else
    match inp.firstReserved with
    | some (p, e) => .refused (.reservedWord p e)
    | none => transition inp s

/-- The state in which the host presents the word `w` alone in the coming step, on the port its `op` belongs to,
with `w_data` as it stands (log entry 1). -/
def State.presentWord (s : State) (w : Word) : State :=
  { s with host := StepIn.single (wordPort w) w s.wData :: s.host }

end Sys2Proof.Machine
end

