-- ==== Sys2Proof/Machine/Step.lean ====
section
/-!
DEFINITION. One step of the block (spec/20_memory.md R48), and the placing of one command word for the next
step.
-/

namespace Sys2Proof.Machine

/-- One step: what the host presents is taken from `host`, the responses of the step before are gone, and the
block answers (R48). -/
def step (s : State) : Host.Outcome State Fault Refusal := runStep s.nextIn s.beginStep

/-- `s` with the word `w` (bits above `nbits` zero) presented in the coming step. -/
def State.withFetchWord (s : State) (nbits w : Nat) : State :=
  s.presentWord (BitVec.ofNat 32 (w % 2 ^ nbits))

end Sys2Proof.Machine
end

