-- ==== Sys2Proof/Machine/Assembly.lean ====
section
/-!
DEFINITION. The one-line command syntax (spec/30_encoding.md R70): a line is one step, `A || B` are commands
of one step on different ports, numbers are decimal or `0x` hexadecimal, `;` starts a comment. What the rule leaves open
(blanks, quotes, the spelling of numbers, lines of no meaning) is DESIGN CHOICE (safe), log entry 13.
-/

namespace Sys2Proof.Machine

/-- The tokens of a line. -/
inductive Token where
  /-- A mnemonic or a number. -/
  | word (t : Text)
  /-- A quoted character. -/
  | quoted (c : Char)
  /-- The comma between operands. -/
  | comma
  /-- The opening brace of a set of indices, U+007B. -/
  | opening
  /-- The closing brace, U+007D. -/
  | closing
  /-- The two bars between the commands of one step. -/
  | bars
  deriving DecidableEq, Repr

/-- The word gathered so far (its last character first), if any, before the tokens that follow. -/
def endWord (acc : Text) (rest : List Token) : List Token :=
  if acc = [] then rest else .word acc.reverse :: rest

/-- The tokens of a line, with the word gathered so far. Quotes win (DESIGN CHOICE, safe, log entry 13): between two single
quotes any one character, `;`, a bar, a comma, a brace, a blank or a quote too, is the quoted character; it starts no
comment and separates nothing. R70 does not say so. A quote or a bar that is not part of a quoted character or of `||` is a
character of a word (the same entry). -/
def tokens : Text → Text → List Token
  | [], acc => endWord acc []
  | '\'' :: c :: '\'' :: rest, acc => endWord acc (.quoted c :: tokens rest [])
  | '|' :: '|' :: rest, acc => endWord acc (.bars :: tokens rest [])
  | c :: rest, acc =>
    if c = ';' then endWord acc []
    else if c = ' ' ∨ c = '\t' then endWord acc (tokens rest [])
    else if c = ',' then endWord acc (.comma :: tokens rest [])
    else if c.toNat = 0x7B then endWord acc (.opening :: tokens rest [])
    else if c.toNat = 0x7D then endWord acc (.closing :: tokens rest [])
    else tokens rest (c :: acc)

/-- The value of a digit in a base of at most 16. -/
def digitIn (base : Nat) (c : Char) : Option Nat :=
  let n := c.toNat
  let d :=
    if 0x30 ≤ n ∧ n ≤ 0x39 then n - 0x30
    else if 0x41 ≤ n ∧ n ≤ 0x46 then n - 0x41 + 10
    else if 0x61 ≤ n ∧ n ≤ 0x66 then n - 0x61 + 10
    else base
  if d < base then some d else none

/-- The value of a sequence of digits, the most significant first. -/
def numeralIn (base : Nat) (t : Text) : Option Nat :=
  t.foldl (fun acc c => acc.bind fun n => (digitIn base c).map fun d => base * n + d) (some 0)

/-- A number: `0x` and hexadecimal digits, or decimal digits. -/
def numberOf : Text → Option Nat
  | [] => none
  | '0' :: 'x' :: d :: ds => numeralIn 16 (d :: ds)
  | t => numeralIn 10 t

/-- The rest of a set of indices, after its first. -/
def indexTail : List Token → Option (List Nat)
  | [.closing] => some []
  | .comma :: .word n :: rest => (numberOf n).bind fun i => (indexTail rest).map fun l => i :: l
  | _ => none

/-- A set of cell indices in braces; an index outside the 2048 cells cannot be expressed (R121). -/
def indexSet : List Token → Option (List Nat)
  | [.opening, .closing] => some []
  | .opening :: rest =>
    (indexTail (.comma :: rest)).bind fun l => if l.all (· < Config.cells) then some l else none
  | _ => none

/-- A command with two numbers as operands. -/
def twoNumbers (mk : Nat → Nat → Option Instr) : List Token → Option Instr
  | [.word x, .comma, .word y] => (numberOf x).bind fun a => (numberOf y).bind fun b => mk a b
  | _ => none

/-- The value operand of `SETP`: 0 or 1. -/
def bitOf (t : Text) : Option Bool :=
  match numberOf t with
  | some 0 => some false
  | some 1 => some true
  | _ => none

/-- The operands of `SETP`. -/
def setpOperands : List Token → Option Instr
  | [.word x, .comma, .word y, .comma, .word v] =>
    (bitOf v).bind fun b => twoNumbers (fun x y => some (.setp x y b)) [.word x, .comma, .word y]
  | _ => none

/-- The operand of `GLYPH`: a quoted character or its code; the code has to fit the field `sym` (R62, R72). -/
def glyphOperand : List Token → Option Instr
  | [.quoted c] => if symFits c.toNat then some (.glyph c.toNat) else none
  | [.word n] => (numberOf n).bind fun k => if symFits k then some (.glyph k) else none
  | _ => none

/-- A command that takes no operand. -/
def noOperand (i : Instr) (ts : List Token) : Option Instr := if ts = [] then some i else none

/-- One command: the operation, and the cells that are on in `w_data` (none but for `PUTS`). -/
def parseCommand : List Token → Option (Instr × List Nat)
  | .word m :: ts =>
    if m = ['M', 'A', 'P'] then (twoNumbers (fun x y => some (.map x y)) ts).map (·, [])
    else if m = ['N', 'E', 'W'] then (noOperand .new ts).map (·, [])
    else if m = ['S', 'E', 'T', 'P'] then (setpOperands ts).map (·, [])
    else if m = ['G', 'E', 'T', 'P'] then (twoNumbers (fun x y => some (.getp x y)) ts).map (·, [])
    else if m = ['G', 'E', 'T', 'S'] then (noOperand .gets ts).map (·, [])
    else if m = ['P', 'U', 'T', 'S'] then (indexSet ts).map fun l => (.puts, l)
    else if m = ['R', 'E', 'N', 'D'] then (noOperand .rend ts).map (·, [])
    else if m = ['G', 'L', 'Y', 'P', 'H'] then (glyphOperand ts).map (·, [])
    else none
  | _ => none

/-- The tokens of a line cut at the bars: one list a command. -/
def splitBars : List Token → List (List Token)
  | [] => [[]]
  | .bars :: ts => [] :: splitBars ts
  | t :: ts =>
    match splitBars ts with
    | [] => [[t]]
    | l :: ls => (t :: l) :: ls

/-- Put one command on its port, which must still be free: at most one command a port a step (R48). -/
def placeCommand (inp : StepIn) (c : Instr × List Nat) : Option StepIn :=
  match inp.cmdOn c.1.port with
  | some _ => none
  | none =>
    let placed := inp.setCmd (some (encode c.1)) c.1.port
    some (if c.1 = .puts then { placed with wData := gridOf c.2 } else placed)

/-- The step a line stands for. A coordinate too wide for its field is presented by its low 12 bits (R64). -/
def assembleLine (line : Text) : Option StepIn :=
  (splitBars (tokens line [])).foldl
    (fun acc ts => acc.bind fun inp => (parseCommand ts).bind (placeCommand inp)) (some StepIn.idle)

end Sys2Proof.Machine
end

