-- ==== Sys2Proof/Machine/Bus.lean ====
section
/-!
DEFINITION. The response payloads as they stand on the pins (spec/30_encoding.md R66, R68, R69): a view of the
responses that State holds. A port whose `rsp_valid` is 0 has no payload (DESIGN CHOICE, safe, log entry 8).
-/

namespace Sys2Proof.Machine

/-- The payload pins of port R: `r_bit`, `r_state`, `r_text` (R66). -/
structure ReadBus where
  /-- `r_bit`. -/
  bit : Bool
  /-- `r_state[2047:0]`. -/
  cells : Grid
  /-- `r_text`. -/
  text : Text
  deriving DecidableEq, Repr

/-- The payload pins of port G: `g_found`, `g_rows` (R66). -/
structure GlyphBus where
  /-- `g_found`. -/
  found : Bool
  /-- `g_rows[39:0]`. -/
  rows : BitVec 40
  deriving DecidableEq, Repr

/-- `w_status[7:0]`: the status of `SETP`, and 0x00 with an acknowledgement (R68, R69). -/
def busW : WriteRsp → BitVec 8
  | .ack => 0x00#8
  | .status st => statusCode st

/-- The pins of port R; a field not named for the operation is 0, which of a text is the empty one (R68; DEDUCED, log entry 8). -/
def busR : ReadRsp → ReadBus
  | .bit b => { bit := b, cells := 0#2048, text := [] }
  | .cells s => { bit := false, cells := s, text := [] }
  | .text t => { bit := false, cells := 0#2048, text := t }

/-- Five rows on `g_rows`: row `i` is `g_rows[8*i+7 : 8*i]` (R68). -/
def packRows (rows : Vector Byte 5) : BitVec 40 :=
  rows[4].setWidth 40 <<< 32 ||| rows[3].setWidth 40 <<< 24 ||| rows[2].setWidth 40 <<< 16
    ||| rows[1].setWidth 40 <<< 8 ||| rows[0].setWidth 40

/-- The pins of port G; a not-found lookup has `g_rows = 0` (R68). -/
def busG : GlyphRsp → GlyphBus
  | .notFound => { found := false, rows := 0#40 }
  | .found rows => { found := true, rows := packRows rows }

end Sys2Proof.Machine
end

