-- ==== Sys2Proof/Machine/DrawHex.lean ====
section
/-!
DEFINITION. The host's pseudo-operation `DRAWHEX` (spec/30_encoding.md R71; spec/43_glyph_table.md R147). The block
never sees it; it is a list of operations, each presented in a step of its own.
-/

namespace Sys2Proof.Machine

/-- The twenty pixel writes of a glyph at `(x, y)`: row `i` at `y + i`, the row's upper four bits from left to
right at `x` to `x + 3`, the coordinates unreduced (R147). -/
def drawRows (rows : Vector Byte 5) (x y : Nat) : List Instr :=
  (List.range Config.glyphRows).flatMap fun i =>
    (List.range Config.glyphWidth).map fun j => .setp (x + j) (y + i) (rowPixel (rows[i]?.getD 0#8) j)

/-- `DRAWHEX sym, x, y` for a table: one `GLYPH`, and when the symbol is found twenty `SETP` (R147). -/
def drawHex (rom : GlyphRom) (sym x y : Nat) : List Instr :=
  .glyph sym ::
    match lookup rom sym with
    | .notFound => []
    | .found rows => drawRows rows x y

end Sys2Proof.Machine
end

