-- ==== Sys2Proof/Machine/Spelling.lean ====
section
/-!
DEFINITION. How a command is written (spec/30_encoding.md R70), as relations between a text and what it spells: the terms
in which statements speak of `assembleLine`, which reads a line. Nothing here is used by a step.
-/

namespace Sys2Proof.Machine

/-- A text that is a digit sequence of the base, the most significant first, of value `n`; a digit above 9 is a letter of
either case (DESIGN CHOICE, safe, log entry 13). -/
def SpellsDigits (base : Nat) (t : Text) (n : Nat) : Prop :=
  ∃ ds : List Nat, ds ≠ [] ∧
    List.Forall₂ (fun c d => d < base ∧ (c = d.digitChar ∨ c = d.digitChar.toUpper)) t ds ∧
    n = ds.foldl (fun acc d => base * acc + d) 0

/-- 'Numbers are decimal or `0x` hexadecimal' (R70). -/
def SpellsNumber (t : Text) (n : Nat) : Prop :=
  SpellsDigits 10 t n ∨ ∃ u, t = '0' :: 'x' :: u ∧ SpellsDigits 16 u n

/-- A mnemonic, `k + 1` blanks, and the operands with `, ` between them. -/
def written (mnemonic : Text) (k : Nat) (operands : List Text) : Text :=
  mnemonic ++ List.replicate (k + 1) ' ' ++ [',', ' '].intercalate operands

/-- A set of indices in braces, U+007B and U+007D. -/
def writtenSet (indices : List Text) : Text :=
  Char.ofNat 0x7B :: ([',', ' '].intercalate indices ++ [Char.ofNat 0x7D])

/-- A text that is a command of R70: the operation it spells, and the cells that are on in its `w_data` (none but for
`PUTS`). -/
def SpellsCommand (t : Text) : Instr × List Nat → Prop
  | (.map x y, on) => on = [] ∧ ∃ k tx ty, SpellsNumber tx x ∧ SpellsNumber ty y ∧
      t = written ['M', 'A', 'P'] k [tx, ty]
  | (.new, on) => on = [] ∧ t = ['N', 'E', 'W']
  | (.setp x y v, on) => on = [] ∧ ∃ k tx ty tv, SpellsNumber tx x ∧ SpellsNumber ty y ∧
      SpellsNumber tv v.toNat ∧ t = written ['S', 'E', 'T', 'P'] k [tx, ty, tv]
  | (.getp x y, on) => on = [] ∧ ∃ k tx ty, SpellsNumber tx x ∧ SpellsNumber ty y ∧
      t = written ['G', 'E', 'T', 'P'] k [tx, ty]
  | (.gets, on) => on = [] ∧ t = ['G', 'E', 'T', 'S']
  | (.puts, on) => (∀ i ∈ on, i < Config.cells) ∧ ∃ k indices, List.Forall₂ SpellsNumber indices on ∧
      t = written ['P', 'U', 'T', 'S'] k [writtenSet indices]
  | (.rend, on) => on = [] ∧ t = ['R', 'E', 'N', 'D']
  | (.glyph sym, on) => on = [] ∧ sym < 256 ∧ ∃ k operand,
      ((∃ c : Char, c.toNat = sym ∧ operand = ['\'', c, '\'']) ∨ SpellsNumber operand sym) ∧
      t = written ['G', 'L', 'Y', 'P', 'H'] k [operand]

/-- What may stand after a line's commands: nothing, or a blank and a comment, which `;` starts. -/
def IsComment (t : Text) : Prop := t = [] ∨ ∃ rest, t = ' ' :: ';' :: rest

/-- The commands of a line, with two bars between them. -/
def writtenLine (commands : List Text) : Text := [' ', '|', '|', ' '].intercalate commands

end Sys2Proof.Machine
end

