-- ==== Sys2Proof/Safety.lean ====
section
/-!
DEFINITION. What counts as a safe run: the duties of the host (spec/60_exceptions.md R167, R170;
spec/70_reset_and_hazards.md R183), which the block does not check
(log entry 11).
-/

namespace Sys2Proof.Machine

/-- `k` steps one after another, as long as each answers a next state. -/
def runSteps : Nat → State → Host.Outcome State Fault Refusal
  | 0, s => .next s
  | k + 1, s => andThen (step s) (runSteps k)

/-- The host's two roles (R167). -/
inductive Role where
  /-- Role I: the interpreter. -/
  | interpreter
  /-- Role P: the presentation layer. -/
  | presentation
  deriving DecidableEq, Repr

/-- Which operations a role may issue (R167): role P none that changes the cells. -/
def Role.mayIssue : Role → Instr → Bool
  | .interpreter, _ => true
  | .presentation, .new => false
  | .presentation, .setp _ _ _ => false
  | .presentation, .getp _ _ => true
  | .presentation, .glyph _ => true
  | .presentation, .gets => true
  | .presentation, .puts => false
  | .presentation, .rend => true
  | .presentation, .map _ _ => true

/-- No reserved word is presented (R167 (b)); in a reset step no command is executed at all (R180). -/
def StepIn.clean (inp : StepIn) : Bool := inp.rst || inp.firstReserved.isNone

/-- Neither a reset nor a command on the write port: nothing that could change a cell. -/
def StepIn.writesNothing (inp : StepIn) : Bool := !inp.rst && inp.wCmd.isNone

/-- The role may issue every operation of this step; the reset input is the interpreter's, who owes the reset
(R167). -/
def StepIn.issuedBy (role : Role) (inp : StepIn) : Bool :=
  (role = .interpreter || !inp.rst) && [Port.m, .w, .r, .g].all fun p =>
    match acceptedOn p (inp.cmdOn p) with
    | none => true
    | some i => role.mayIssue i

/-- What one step does to cell `j`, seen from that cell alone (R21 (b), R49, R180): a reset or `NEW` turns it off,
`SETP` writes it when the coordinate names it, `PUTS` writes it from `w_data`, nothing else touches it. -/
def cellAfter (j : Nat) (b : Bool) (inp : StepIn) : Bool :=
  if inp.rst then false
  else
    match acceptedOn .w inp.wCmd with
    | some .new => false
    | some (.setp x y v) => if index x y = j then v else b
    | some .puts => memReadCell inp.wData j
    | _ => b

/-- The cell store is reset before it is first used (R183): `MAP` and `GLYPH` need no reset, and an `R` command in
the step of a `NEW` would read the cells before it (R48). -/
def resetBeforeUse : List StepIn → Bool
  | [] => true
  | inp :: rest =>
    inp.rst ||
      (inp.rCmd.isNone &&
        match acceptedOn .w inp.wCmd with
        | none => resetBeforeUse rest
        | some i => i = .new)

/-- The host presents no reserved word in any coming step (R167 (b)). -/
def State.HostClean (s : State) : Prop := ∀ inp ∈ s.host, inp.clean = true

/-- A response of port R that renders some cells, if it is a text (R122). -/
def ReadRsp.genuine : ReadRsp → Prop
  | .bit _ => True
  | .cells _ => True
  | .text t => ∃ g : Grid, t = render g

/-- A response of port G that is an entry of the glyph table, if it has rows (R140, R144). -/
def GlyphRsp.genuine : GlyphRsp → Prop
  | .notFound => True
  | .found rows => ∃ k, k < Config.glyphCount ∧ rows = romEntry glyphRom k

/-- The invariant of a safe run: the host keeps its duty, and every response on the pins is one the block can
give (R123, R140). -/
structure State.Inv (s : State) : Prop where
  /-- No reserved word is to come. -/
  hostClean : s.HostClean
  /-- A text on port R is a rendered one. -/
  readGenuine : ∀ a, s.out.r = some a → a.genuine
  /-- Rows on port G are those of a table entry. -/
  glyphGenuine : ∀ a, s.out.g = some a → a.genuine

end Sys2Proof.Machine
end

