-- ==== Sys2Proof/Certificates/Slice0/Obligations.lean ====
section
/-!
DEFINITION. The statements about the block, for the provers.
-/

open Sys2Proof Sys2Proof.Machine

/-! ### Reset -/

/-- R31: 'After reset every cell is off'. -/
def Obligations.ResetLeavesEveryCellOff : Prop :=
  ∀ i, i < 2048 → memReadCell State.reset.fb i = false

/-- R180, R181: a step with `rst` turns every cell off and does nothing else, whatever is presented beside it; the
command `NEW` leaves the same cells. -/
def Obligations.ResetStepAndNewHaveOneEffect : Prop :=
  ∀ s inp rest, s.host = inp :: rest → inp.rst = true →
    ∃ t u, step s = .next t ∧ exec .new s = .next u ∧ u.fb = t.fb ∧
      (∀ i, i < 2048 → memReadCell t.fb i = false) ∧ t.out = Outputs.silent ∧ t.host = rest

/-! ### Decoding and encoding -/

/-- The worked encodings of 30_encoding.md section 8, and three reserved words of 95_test_vectors.md 2.6. -/
def Obligations.WorkedEncodingsDecode : Prop :=
  decode 0x10000000 = .ok .new ∧ decode 0x21042081 = .ok (.setp 129 66 true) ∧
    decode 0x3001C036 = .ok (.getp 54 28) ∧ decode 0x40000041 = .ok (.glyph 0x41) ∧
    decode 0x50000000 = .ok .gets ∧ decode 0x60000000 = .ok .puts ∧ decode 0x70000000 = .ok .rend ∧
    decode 0x80040081 = .ok (.map 129 64) ∧ decode 0x00000000 = .error .opcode ∧
    decode 0x22000000 = .error .field ∧ decode 0x31000000 = .error .valueBit

/-- No bit of an encoding is dropped: the word of a well-formed operation decodes to that operation, and is
accepted on the operation's port. -/
def Obligations.DecodeOfEncodeIsIdentity : Prop :=
  ∀ i : Instr, i.wf = true → decode (encode i) = .ok i ∧ accept i.port (encode i) = .ok i

/-- Every word has one meaning: a word that decodes is the word of the operation it decodes to, which is
well-formed. -/
def Obligations.EncodeOfDecodeIsIdentity : Prop :=
  ∀ (w : Word) (i : Instr), decode w = .ok i → i.wf = true ∧ encode i = w

/-- R65: a word is an operation of row `j` exactly when its masked bits are the row's `match`; row by row, the bits outside
the mask are the operand fields and the operation is that of the row's port; `op` 0x0 (so the all-zero word) and 0x9 to 0xF
are reserved. -/
def Obligations.DecodeAgreesWithMatchAndMask : Prop :=
  (∀ (w : Word) (j : Instr),
    w &&& j.opMask = j.opMatch ↔ ∃ i, decode w = .ok i ∧ i.mnemonic = j.mnemonic) ∧
    (∀ w : Word,
      (w &&& 0xFFFFFFFF = 0x10000000 ↔ accept .w w = .ok .new) ∧
      (w &&& 0xFE000000 = 0x20000000 ↔ accept .w w =
        .ok (.setp (w.extractLsb' 0 12).toNat (w.extractLsb' 12 12).toNat (w.getLsbD 24))) ∧
      (w &&& 0xFF000000 = 0x30000000 ↔ accept .r w =
        .ok (.getp (w.extractLsb' 0 12).toNat (w.extractLsb' 12 12).toNat)) ∧
      (w &&& 0xFFFFFF00 = 0x40000000 ↔ accept .g w = .ok (.glyph (w.extractLsb' 0 8).toNat)) ∧
      (w &&& 0xFFFFFFFF = 0x50000000 ↔ accept .r w = .ok .gets) ∧
      (w &&& 0xFFFFFFFF = 0x60000000 ↔ accept .w w = .ok .puts) ∧
      (w &&& 0xFFFFFFFF = 0x70000000 ↔ accept .r w = .ok .rend) ∧
      (w &&& 0xFF000000 = 0x80000000 ↔ accept .m w =
        .ok (.map (w.extractLsb' 0 12).toNat (w.extractLsb' 12 12).toNat)) ∧
      ((w.extractLsb' 28 4).toNat = 0 ∨ 9 ≤ (w.extractLsb' 28 4).toNat → ∃ e, decode w = .error e)) ∧
    ∃ e, decode 0 = .error e

/-- 30_encoding.md section 5: the words reserved on a port are exactly those with a reserved `op`, a non-zero `rsv`
field of their format, `v = 1` in `GETP` or `MAP`, or an `op` of another port. -/
def Obligations.ReservedWordsAreExactlyThese : Prop :=
  ∀ (p : Port) (w : Word), (∃ e, accept p w = .error e) ↔
    (w.extractLsb' 28 4).toNat = 0 ∨ 9 ≤ (w.extractLsb' 28 4).toNat ∨
      ((w.extractLsb' 28 4).toNat ∈ [2, 3, 8] ∧ w.extractLsb' 25 3 ≠ 0) ∨
      ((w.extractLsb' 28 4).toNat = 4 ∧ w.extractLsb' 8 20 ≠ 0) ∨
      ((w.extractLsb' 28 4).toNat ∈ [1, 5, 6, 7] ∧ w.extractLsb' 0 28 ≠ 0) ∨
      ((w.extractLsb' 28 4).toNat ∈ [3, 8] ∧ w.getLsbD 24 = true) ∨
      ((w.extractLsb' 28 4).toNat ∈ [1, 2, 6] ∧ p ≠ .w) ∨
      ((w.extractLsb' 28 4).toNat ∈ [3, 5, 7] ∧ p ≠ .r) ∨
      ((w.extractLsb' 28 4).toNat = 4 ∧ p ≠ .g) ∨ ((w.extractLsb' 28 4).toNat = 8 ∧ p ≠ .m)

/-- R64, its inference '[derived: from 40_address_mapper.md rules R82 and R83]': a coordinate of any size presented by
its low 12 bits gives the result of the abstract operation. -/
def Obligations.TruncatedCoordinatesKeepTheirMeaning : Prop :=
  ∀ (i : Instr) (s : State), (∀ sym, i = .glyph sym → sym < 256) →
    ∃ j, accept i.port (encode i) = .ok j ∧ exec j s = exec i s

/-! ### The address mapper -/

/-- R87 with R80: `MAP` answers the index and changes nothing else. -/
def Obligations.MapAnswersTheIndex : Prop :=
  ∀ (x y : Nat) (s : State), ∃ t idx, exec (.map x y) s = .next t ∧ t.out.m = some idx ∧
    idx.toNat = x % 64 + (y % 32) * 64 ∧ t.fb = s.fb ∧ t.host = s.host ∧ t.wData = s.wData ∧
    t.out.w = s.out.w ∧ t.out.r = s.out.r ∧ t.out.g = s.out.g

/-- R81: the mapper is total and its result is always a valid cell index; smallest at (0, 0), largest at
(63, 31). -/
def Obligations.IndexIsAlwaysAValidCell : Prop :=
  (∀ x y, index x y ≤ 2047) ∧ index 0 0 = 0 ∧ index 63 31 = 2047

/-- R83: wraparound idempotence, with the source's two instances. -/
def Obligations.IndexIsIdempotentUnderWrap : Prop :=
  (∀ x y, index x y = index (x % 64) (y % 32)) ∧ index 64 0 = index 0 0 ∧ index 129 66 = index 1 2

/-- R84: within one period the mapper covers every cell exactly once. -/
def Obligations.IndexCoversEachCellOnce : Prop :=
  ∀ i, i < 2048 → ∃ x y, x < 64 ∧ y < 32 ∧ index x y = i ∧
    ∀ x' y', x' < 64 → y' < 32 → index x' y' = i → x' = x ∧ y' = y

/-- The inferences that R83 and R84 mark as derived: two coordinates name one cell exactly when they are congruent,
and the mapper has period 64 and 32. -/
def Obligations.IndexAliasesAreTheCongruentCoordinates : Prop :=
  (∀ x y x' y', index x y = index x' y' ↔ x % 64 = x' % 64 ∧ y % 32 = y' % 32) ∧
    ∀ x y a b, index (x + 64 * a) (y + 32 * b) = index x y

/-- R82, derived there: of coordinates of any width the index is the five low bits of `y` before the six low bits
of `x`. -/
def Obligations.IndexBitsAreRowThenColumn : Prop :=
  ∀ (n m : Nat) (x : BitVec n) (y : BitVec m), indexBits x.toNat y.toNat = y.setWidth 5 ++ x.setWidth 6

/-- R22, its inverse formulas marked as derived: cell `i` is the cell at column `i mod 64` and row `i div 64`; the cell at
column `c` and row `r` is cell `c + 64*r`, and the mapper gives it. -/
def Obligations.CellPositionsAreRowMajor : Prop :=
  (∀ i, i < 2048 → columnOf i < 64 ∧ rowOf i < 32 ∧ cellAt (columnOf i) (rowOf i) = i) ∧
    ∀ c r, c < 64 → r < 32 → cellAt c r = c + 64 * r ∧ cellAt c r < 2048 ∧ columnOf (cellAt c r) = c ∧
      rowOf (cellAt c r) = r ∧ index c r = cellAt c r

/-! ### Single cells -/

/-- R100: `NEW` turns every cell off, acknowledges, and changes nothing else. -/
def Obligations.NewTurnsEveryCellOff : Prop :=
  ∀ s : State, ∃ t, exec .new s = .next t ∧ (∀ i, i < 2048 → memReadCell t.fb i = false) ∧
    t.out.w = some .ack ∧ t.host = s.host ∧ t.wData = s.wData ∧ t.out.m = s.out.m ∧ t.out.r = s.out.r ∧
    t.out.g = s.out.g

/-- R101, R104: for every coordinate and value, `SETP` writes the value to the mapped cell and to no other cell, and its
status is `OK`. -/
def Obligations.SetpWritesExactlyTheMappedCell : Prop :=
  ∀ (x y : Nat) (v : Bool) (s : State), ∃ t, exec (.setp x y v) s = .next t ∧
    memReadCell t.fb (index x y) = v ∧
    (∀ j, j < 2048 → j ≠ index x y → memReadCell t.fb j = memReadCell s.fb j) ∧
    t.out.w = some (.status (.ok ())) ∧ t.host = s.host ∧ t.wData = s.wData ∧ t.out.m = s.out.m ∧
    t.out.r = s.out.r ∧ t.out.g = s.out.g

/-- R102: `GETP` answers the mapped cell, for every coordinate, and changes nothing else. -/
def Obligations.GetpAnswersTheMappedCell : Prop :=
  ∀ (x y : Nat) (s : State), ∃ t, exec (.getp x y) s = .next t ∧
    t.out.r = some (.bit (memReadCell s.fb (x % 64 + (y % 32) * 64))) ∧ t.fb = s.fb ∧ t.host = s.host ∧
    t.wData = s.wData ∧ t.out.m = s.out.m ∧ t.out.w = s.out.w ∧ t.out.g = s.out.g

/-- R103: `SETP x, y, v` in one step, then any steps without a command on port W, then `GETP x, y`: the answer is `v`,
for coordinates of any size. -/
def Obligations.WriteThenReadReturnsTheValue : Prop :=
  ∀ (s : State) (x y : Nat) (v : Bool) (first last : StepIn) (mids rest : List StepIn),
    s.host = first :: (mids ++ last :: rest) →
    first.clean = true → first.rst = false → first.wCmd = some (encode (.setp x y v)) →
    (∀ inp ∈ mids, inp.clean = true ∧ inp.writesNothing = true) →
    last.clean = true → last.rst = false → last.rCmd = some (encode (.getp x y)) →
    ∃ t, runSteps (mids.length + 2) s = .next t ∧ t.out.r = some (.bit v)

/-- The inferences that R103 and R104 mark as derived: after `SETP x, y, v`, a read through any alias of (x, y) gives
`v`, and a read of any other cell what it gave before. -/
def Obligations.ReadAfterWriteThroughAnyCoordinate : Prop :=
  ∀ (x y x' y' : Nat) (v : Bool) (s t : State), exec (.setp x y v) s = .next t →
    ∃ u u', exec (.getp x' y') t = .next u ∧ exec (.getp x' y') s = .next u' ∧
      (x' % 64 = x % 64 ∧ y' % 32 = y % 32 → u.out.r = some (.bit v)) ∧
      (¬(x' % 64 = x % 64 ∧ y' % 32 = y % 32) → u.out.r = u'.out.r)

/-! ### All cells -/

/-- R120: `GETS` answers every cell, bit `i` cell `i`, and changes nothing else. -/
def Obligations.GetsAnswersEveryCell : Prop :=
  ∀ s : State, ∃ t g, exec .gets s = .next t ∧ t.out.r = some (.cells g) ∧
    (∀ i, i < 2048 → g.getLsbD i = memReadCell s.fb i) ∧ t.fb = s.fb ∧ t.host = s.host ∧
    t.wData = s.wData ∧ t.out.m = s.out.m ∧ t.out.w = s.out.w ∧ t.out.g = s.out.g

/-- R121: `PUTS` gives every cell its bit of `w_data`, acknowledges, and changes nothing else. -/
def Obligations.PutsReplacesEveryCell : Prop :=
  ∀ s : State, ∃ t, exec .puts s = .next t ∧
    (∀ i, i < 2048 → memReadCell t.fb i = s.wData.getLsbD i) ∧ t.out.w = some .ack ∧ t.host = s.host ∧
    t.wData = s.wData ∧ t.out.m = s.out.m ∧ t.out.r = s.out.r ∧ t.out.g = s.out.g

/-- R43: bit `i` of the bulk vector is cell `i`, of what `GETS` returns and of what `PUTS` takes; as 256 bytes, byte `j`
holds cells `8*j` to `8*j + 7`, cell `8*j` in bit 0. -/
def Obligations.BulkVectorIsTheCellSequence : Prop :=
  (∀ s t g, exec .gets s = .next t → t.out.r = some (.cells g) → ∀ i, i < 2048 →
      g.getLsbD i = s.fb.getLsbD i) ∧
    (∀ s t, exec .puts s = .next t → ∀ i, i < 2048 → t.fb.getLsbD i = s.wData.getLsbD i) ∧
    ∀ (g : Grid) (j k : Nat), j < 256 → k < 8 → (gridByte g j).getLsbD k = g.getLsbD (8 * j + k)

/-- R122, R123: `REND` answers the text of all cells, rows 0 to 31, in a row columns 0 to 63, each cell followed by the
separator, each row by the line break; it changes nothing else. -/
def Obligations.RendAnswersTheText : Prop :=
  ∀ s : State, ∃ t, exec .rend s = .next t ∧
    t.out.r = some (.text ((List.range 32).flatMap fun r =>
      ((List.range 64).flatMap fun c =>
        (if s.fb.getLsbD (64 * r + c) then onGlyph else [' ']) ++ Config.sep) ++ ['\n'])) ∧
    t.fb = s.fb ∧ t.host = s.host ∧ t.wData = s.wData ∧ t.out.m = s.out.m ∧ t.out.w = s.out.w ∧
    t.out.g = s.out.g

/-- R124, derived there: with one-character parameters every line has 129 characters and the text 4128; the two
characters of the cell at column `c` and row `r` stand at `129*r + 2*c`. -/
def Obligations.OneCharacterTextHasItsShape : Prop :=
  ∀ (on sep : Char) (g : Grid), (renderWith [on] [sep] g).length = 4128 ∧
    ∀ r, r < 32 → (renderWith [on] [sep] g)[129 * r + 128]? = some '\n' ∧
      ∀ c, c < 64 →
        (renderWith [on] [sep] g)[129 * r + 2 * c]? =
            some (if memReadCell g (64 * r + c) then on else ' ') ∧
          (renderWith [on] [sep] g)[129 * r + 2 * c + 1]? = some sep

/-- R125, derived there: with `ON_GLYPH` different from `BLANK` and as long as it, different states give different
texts. -/
def Obligations.RenderTellsStatesApart : Prop :=
  ∀ (on sep : Text) (g h : Grid), on ≠ Config.blank → on.length = Config.blank.length →
    renderWith on sep g = renderWith on sep h → g = h

/-- R125: two renders without an intervening write answer the same text. -/
def Obligations.RenderingTwiceGivesEqualTexts : Prop :=
  ∀ (s : State) (first last : StepIn) (mids rest : List StepIn),
    s.host = first :: (mids ++ last :: rest) →
    first.clean = true → first.writesNothing = true → first.rCmd = some (encode .rend) →
    (∀ inp ∈ mids, inp.clean = true ∧ inp.writesNothing = true) →
    last.clean = true → last.rst = false → last.rCmd = some (encode .rend) →
    ∃ t u txt, step s = .next t ∧ runSteps (mids.length + 2) s = .next u ∧
      t.out.r = some (.text txt) ∧ u.out.r = some (.text txt)

/-- The model's choice (log entry 3) keeps R124's requirement on `ON_GLYPH`: it is non-empty and differs from
`BLANK`. -/
def Obligations.OnGlyphIsAdmitted : Prop := onGlyph ≠ [] ∧ onGlyph ≠ Config.blank

/-! ### Glyphs -/

/-- R143, R144: `GLYPH` answers the rows of the table entry for '0' to '9' and 'A' to 'F', not found for every other
symbol; it changes nothing else, and its answer is the same in every state. -/
def Obligations.GlyphLooksUpTheTable : Prop :=
  ∀ (sym : Nat) (s : State), ∃ t, exec (.glyph sym) s = .next t ∧
    (48 ≤ sym ∧ sym ≤ 57 → ∃ rows : Vector Byte 5, t.out.g = some (.found rows) ∧
      ∀ r (h : r < 5), rows[r] = glyphRom (sym - 48) r) ∧
    (65 ≤ sym ∧ sym ≤ 70 → ∃ rows : Vector Byte 5, t.out.g = some (.found rows) ∧
      ∀ r (h : r < 5), rows[r] = glyphRom (sym - 65 + 10) r) ∧
    (¬(48 ≤ sym ∧ sym ≤ 57) ∧ ¬(65 ≤ sym ∧ sym ≤ 70) → t.out.g = some .notFound) ∧
    t.fb = s.fb ∧ t.host = s.host ∧ t.wData = s.wData ∧ t.out.m = s.out.m ∧ t.out.w = s.out.w ∧
    t.out.r = s.out.r

/-- The entry the source gives (R142): `GLYPH 'A'` has rows F0 90 F0 90 90 in every state, whatever the open entries
are, and they stand on `g_rows` as 0x9090F090F0. -/
def Obligations.GlyphOfAHasItsRows : Prop :=
  ∀ s : State, ∃ t rows, exec (.glyph 0x41) s = .next t ∧ t.out.g = some (.found rows) ∧
    rows = #v[0xF0#8, 0x90#8, 0xF0#8, 0x90#8, 0x90#8] ∧
    busG (.found rows) = { found := true, rows := 0x9090F090F0 }

/-! ### Responses -/

/-- R68: the payload pins, operation by operation; a field not named for an operation is 0. That the 0 of `r_text`, a
string, is the empty text is not said by R68: it is the model's reading (DEDUCED, log entry 8), on which the clauses with
`text := []` rest. -/
def Obligations.PayloadsStandOnTheirPins : Prop :=
  (∀ (x y : Nat) (s : State), ∃ t idx, exec (.map x y) s = .next t ∧ t.out.m = some idx ∧
      idx.toNat = index x y) ∧
    (∀ (i : Instr) (s : State), i.port = .w → ∃ t a, exec i s = .next t ∧ t.out.w = some a ∧
      busW a = 0x00#8) ∧
    (∀ (x y : Nat) (s : State), ∃ t a, exec (.getp x y) s = .next t ∧ t.out.r = some a ∧
      busR a = { bit := memReadCell s.fb (index x y), cells := 0#2048, text := [] }) ∧
    (∀ s : State, ∃ t a, exec .gets s = .next t ∧ t.out.r = some a ∧
      busR a = { bit := false, cells := s.fb, text := [] }) ∧
    (∀ s : State, ∃ t a, exec .rend s = .next t ∧ t.out.r = some a ∧
      busR a = { bit := false, cells := 0#2048, text := render s.fb }) ∧
    (∀ (sym k : Nat) (s : State), key sym = some k → ∃ t a, exec (.glyph sym) s = .next t ∧
      t.out.g = some a ∧ (busG a).found = true ∧
      ∀ i, i < 5 → (busG a).rows.extractLsb' (8 * i) 8 = glyphRom k i) ∧
    ∀ (sym : Nat) (s : State), key sym = none → ∃ t a, exec (.glyph sym) s = .next t ∧
      t.out.g = some a ∧ busG a = { found := false, rows := 0#40 }

/-- R69: in every step, `SETP` answers with the success side of its two-sided status, code 0x00; the other write port
operations answer with an acknowledgement and carry no status. -/
def Obligations.OnlySetpCarriesTheStatus : Prop :=
  ∀ s t : State, step s = .next t → s.nextIn.rst = false →
    (∀ x y v, acceptedOn .w s.nextIn.wCmd = some (.setp x y v) →
      t.out.w = some (.status (.ok ())) ∧ busW (.status (.ok ())) = 0x00#8) ∧
    (∀ i, acceptedOn .w s.nextIn.wCmd = some i → (∀ x y v, i ≠ .setp x y v) → t.out.w = some .ack) ∧
    (acceptedOn .w s.nextIn.wCmd = none → t.out.w = none)

/-! ### Steps -/

/-- A step in which the host presents one word on one port runs the operation the word decodes to there; around it the
step takes the input off `host`, puts `w_data` on its pins and drops the responses of the step before. That the inputs
stand in a list which the step consumes, `w_data` on its pins, and that the old responses are dropped is the model's choice
(DESIGN CHOICE, log entry 1), not a rule of the spec. -/
def Obligations.StepRunsThePresentedOperation : Prop :=
  ∀ (s : State) (p : Port) (w : Word) (d : Grid) (rest : List StepIn) (i : Instr),
    accept p w = .ok i → s.host = StepIn.single p w d :: rest →
    step s = exec i { fb := s.fb, host := rest, wData := d, out := Outputs.silent }

/-- A word placed for the next step is the operation that step runs. The placing is the model's choice (DESIGN CHOICE, log
entry 1): the block fetches nothing, and `withFetchWord` has the host present the word, alone, on the port of its `op`, with
`w_data` as it stands. -/
def Obligations.PlacedWordIsTheNextOperation : Prop :=
  ∀ (s : State) (nbits w : Nat) (i : Instr), decodeTableWord nbits w = some i →
    step (s.withFetchWord nbits w) = exec i { s with out := Outputs.silent }

/-- R160: no operation, with any operand, in any state, does anything but answer a next state; and every step whose
inputs are built from the operations answers a next state. -/
def Obligations.EveryOperationCompletes : Prop :=
  (∀ (i : Instr) (s : State), ∃ t, exec i s = .next t) ∧
    ∀ (s : State) (inp : StepIn) (rest : List StepIn), s.host = inp :: rest →
      (∀ p w, inp.cmdOn p = some w → ∃ i : Instr, i.wf = true ∧ i.port = p ∧ w = encode i) →
      ∃ t, step s = .next t

/-- 30_encoding.md section 5 and log entry 5: outside a reset step, a step is refused exactly when a port carries a
reserved word, and the refusal names such a port; every other step answers a next state. -/
def Obligations.StepIsRefusedExactlyOnReservedWords : Prop :=
  ∀ s : State, (s.nextIn.clean = true → ∃ t, step s = .next t) ∧
    (s.nextIn.clean = false → ∃ p w e, step s = .refused (.reservedWord p e) ∧
      s.nextIn.cmdOn p = some w ∧ accept p w = .error e)

/-- 30_encoding.md section 5 and 60_exceptions.md section 2, of the transition under the refusal (log entry 5): a
reserved word gets no response, changes no state, and does not affect the commands on the other ports. -/
def Obligations.ReservedWordDisturbsNoOtherPort : Prop :=
  (∀ (inp : StepIn) (p : Port) (e : Reserved) (s : State), reservedOn p (inp.cmdOn p) = some e →
      transition inp s = transition (inp.setCmd none p) s) ∧
    ∀ (p : Port) (w : Word) (d : Grid) (e : Reserved) (s : State), accept p w = .error e →
      transition (StepIn.single p w d) s = .next s

/-- R48: in one step, each port's response is what its command gives on the state before the step, and the cells after
it are those that the write port's command leaves; an absent command gives no response. -/
def Obligations.ResponsesAreThoseOfTheStateBefore : Prop :=
  ∀ s : State, s.nextIn.clean = true → s.nextIn.rst = false → ∃ t, step s = .next t ∧
    (∀ p i u, acceptedOn p (s.nextIn.cmdOn p) = some i → exec i s.beginStep = .next u →
      (p = .m → t.out.m = u.out.m) ∧ (p = .r → t.out.r = u.out.r) ∧ (p = .g → t.out.g = u.out.g) ∧
      (p = .w → t.out.w = u.out.w ∧ t.fb = u.fb)) ∧
    (s.nextIn.mCmd = none → t.out.m = none) ∧ (s.nextIn.rCmd = none → t.out.r = none) ∧
    (s.nextIn.gCmd = none → t.out.g = none) ∧ (s.nextIn.wCmd = none → t.out.w = none ∧ t.fb = s.fb)

/-- R48, derived there: a step with a command on R and one on W equals two steps, the read, then the write. -/
def Obligations.ReadAndWriteStepEqualsReadThenWrite : Prop :=
  ∀ (s : State) (r w : Word) (d : Grid) (rest : List StepIn) (i j : Instr),
    accept .r r = .ok i → accept .w w = .ok j →
    ∃ t u v,
      step { s with host := { StepIn.idle with rCmd := some r, wCmd := some w, wData := d } :: rest } =
        .next t ∧
      step { s with host := StepIn.single .r r d :: StepIn.single .w w d :: rest } = .next u ∧
      step u = .next v ∧ t.fb = v.fb ∧ t.out.r = u.out.r ∧ t.out.w = v.out.w ∧ t.host = v.host

/-- R186 (the spec's decision D7, log entry 6): a read in the step of a write sees the cells before the write: `GETP`
of the cell that `SETP` writes, and `GETS` and `REND` beside any write. -/
def Obligations.SameStepReadSeesTheOldValue : Prop :=
  (∀ (s : State) (x y x' y' : Nat) (v : Bool) (d : Grid) (rest : List StepIn), index x y = index x' y' →
      s.host = { StepIn.idle with rCmd := some (encode (.getp x y)),
                                  wCmd := some (encode (.setp x' y' v)), wData := d } :: rest →
      ∃ t, step s = .next t ∧ t.out.r = some (.bit (memReadCell s.fb (index x' y'))) ∧
        memReadCell t.fb (index x' y') = v) ∧
    ∀ (s : State) (i : Instr) (d : Grid) (rest : List StepIn), i.port = .w →
      (s.host = { StepIn.idle with rCmd := some (encode .gets), wCmd := some (encode i), wData := d } :: rest →
        ∃ t, step s = .next t ∧ t.out.r = some (.cells s.fb)) ∧
      (s.host = { StepIn.idle with rCmd := some (encode .rend), wCmd := some (encode i), wData := d } :: rest →
        ∃ t, step s = .next t ∧ t.out.r = some (.text (render s.fb)))

/-- R48 and R146: `MAP` and `GLYPH` commute with every operation of another port. -/
def Obligations.MapAndGlyphCommuteWithOtherPorts : Prop :=
  ∀ (i j : Instr) (s : State), i.port = .m ∨ i.port = .g → j.port ≠ i.port →
    andThen (exec i s) (exec j) = andThen (exec j s) (exec i)

/-- 10_state.md sections 1 and 2: beside the cells nothing is state. A step's whole result is fixed by the cells and by
what the host presents; the response pins and the earlier `w_data` have no part in it. -/
def Obligations.GridAndInputsDetermineTheStep : Prop :=
  ∀ s s' : State, s.fb = s'.fb → s.host = s'.host → step s = step s'

/-- Conflict C1 of 90_conflicts.md: cells change only through `NEW`, `SETP`, `PUTS` or a reset. -/
def Obligations.CellsChangeOnlyByWritesOrReset : Prop :=
  ∀ s t : State, step s = .next t → t.fb ≠ s.fb → s.nextIn.rst = true ∨
    ∃ w i, s.nextIn.wCmd = some w ∧ accept .w w = .ok i ∧
      (i = .new ∨ i = .puts ∨ ∃ x y v, i = .setp x y v)

/-! ### Runs -/

/-- R49: over any run, every cell holds what the latest step that wrote it gave it: one cell's history, folded over the
inputs, is that cell of the machine. -/
def Obligations.EveryCellHoldsItsLatestWrite : Prop :=
  ∀ (k : Nat) (s t : State), runSteps k s = .next t → ∀ j, j < 2048 →
    memReadCell t.fb j = (s.host.take k).foldl (cellAfter j) (memReadCell s.fb j)

/-- 70_reset_and_hazards.md section 2: the block never ends a run by itself. While no reserved word is presented, a run
of any length completes. -/
def Obligations.CleanRunsNeverStop : Prop :=
  ∀ (k : Nat) (s : State), s.HostClean →
    ∃ t, runSteps k s = .next t ∧ t.host = s.host.drop k ∧ t.HostClean

/-- Every step keeps the invariant of a safe run: no reserved word to come, texts on port R are renders of some cells,
rows on port G are those of a table entry. -/
def Obligations.SafeRunIsKeptByEveryStep : Prop :=
  ∀ s t : State, s.Inv → step s = .next t → t.Inv

/-- The invariant of a safe run holds at reset. It rests on the empty `host` list there, the model's choice (DESIGN CHOICE,
log entry 1): the spec gives the pins no reset value. -/
def Obligations.SafeRunHoldsAtReset : Prop := State.reset.Inv

/-- R188, derived there: an idle step may be inserted anywhere without changing any result: the cells at the end are the
same, and so is every later response. -/
def Obligations.IdleStepsChangeNoResult : Prop :=
  ∀ (s t : State) (before after : List StepIn),
    runSteps (before.length + after.length) { s with host := before ++ after } = .next t →
    ∃ u, runSteps (before.length + 1 + after.length)
        { s with host := before ++ StepIn.idle :: after } = .next u ∧
      u.fb = t.fb ∧ u.host = t.host ∧ (after ≠ [] → u = t)

/-- 60_exceptions.md section 4: what the presentation layer may issue changes nothing. A run in which the host keeps to
role P leaves every cell as it was. -/
def Obligations.PresentationLayerNeverChangesCells : Prop :=
  ∀ (k : Nat) (s t : State), (∀ inp ∈ s.host, inp.issuedBy .presentation = true) →
    runSteps k s = .next t → t.fb = s.fb

/-- 70_reset_and_hazards.md section 2: the content of the cells before the first reset is not observable by a host that
resets the cell store before it uses it. Two runs that differ in those cells alone give the same responses at every
step. -/
def Obligations.ContentBeforeResetIsNotObservable : Prop :=
  ∀ (k : Nat) (s s' t t' : State), s.host = s'.host → resetBeforeUse s.host = true →
    runSteps (k + 1) s = .next t → runSteps (k + 1) s' = .next t' → t.out = t'.out

/-- R147: `DRAWHEX` of a symbol with a glyph, at any coordinate: the twenty pixels take the upper four bits of the five
rows, bit 7 at `x`, wrapping at the edges, a 0 bit turning its pixel off, and every other cell is as it was; of a symbol
that is not found it is one step, which writes nothing. The bit order is the spec's decision D20, the not-found case its
decision D16. -/
def Obligations.DrawHexDrawsTheGlyph : Prop :=
  (∀ (sym x y : Nat) (rows : Vector Byte 5) (s : State), lookup glyphRom sym = .found rows →
    s.host = (drawHex glyphRom sym x y).map (StepIn.ofInstr · 0#2048) →
    ∃ t, runSteps 21 s = .next t ∧ t.host = [] ∧
      (∀ i (hi : i < 5) j, j < 4 → memReadCell t.fb (index (x + j) (y + i)) = rows[i].getLsbD (7 - j)) ∧
      ∀ c, c < 2048 → (∀ i j, i < 5 → j < 4 → c ≠ index (x + j) (y + i)) →
        memReadCell t.fb c = memReadCell s.fb c) ∧
    ∀ (sym x y : Nat) (s : State), sym < 256 → lookup glyphRom sym = .notFound →
      s.host = (drawHex glyphRom sym x y).map (StepIn.ofInstr · 0#2048) →
      ∃ t, step s = .next t ∧ t.host = [] ∧ t.fb = s.fb ∧ t.out.g = some .notFound

/-! ### Text syntax -/

/-- R70: a line of the command syntax, of one command or of several on different ports with bars between them, with or
without a comment, stands for the step that presents exactly its commands, each on its port; a cell is on in `w_data` when
the set of a `PUTS` on the line names it. Every command of the syntax is meant, numbers decimal or hexadecimal.
The model's choices (log entry 13) in it: that blanks may stand in any number before the operands, that hexadecimal letters
may be of either case, that quotes win over `;`, bars, commas, braces and blanks inside them, that a coordinate too wide for
its field is presented by its low 12 bits, and that `w_data` is 0 without `PUTS`. -/
def Obligations.CommandLinesStandForTheirSteps : Prop :=
  ∀ (line : List (Text × Instr × List Nat)) (comment : Text), line ≠ [] →
    (∀ c ∈ line, SpellsCommand c.1 c.2) → (line.map fun c => c.2.1.port).Nodup → IsComment comment →
    ∃ inp, assembleLine (writtenLine (line.map fun c => c.1) ++ comment) = some inp ∧ inp.rst = false ∧
      (∀ c ∈ line, inp.cmdOn c.2.1.port = some (encode c.2.1)) ∧
      (∀ p, (∀ c ∈ line, c.2.1.port ≠ p) → inp.cmdOn p = none) ∧
      ∀ i, i < 2048 → (inp.wData.getLsbD i = true ↔ ∃ c ∈ line, i ∈ c.2.2)
end

