-- ==== Sys2Proof/Laws/Assembly.lean ====
section
/-!
SUPPORT. What reading a written command gives, piece by piece (spec/30_encoding.md R70): words, blanks, numbers, sets.
-/

namespace Sys2Proof.Machine

/-! ### Tokens -/

/-- The characters that are not simply part of a word. -/
def separators : Text := ['\'', '|', ';', ' ', '\t', ',', Char.ofNat 0x7B, Char.ofNat 0x7D]

theorem tokens_cons {c : Char} (h : c ∉ separators) (rest acc : Text) :
    tokens (c :: rest) acc = tokens rest (c :: acc) := by
  simp only [separators, List.mem_cons, not_or] at h
  obtain ⟨h1, h2, h3, h4, h5, h6, h7, h8, -⟩ := h
  have hb : c.toNat ≠ 0x7B := fun e => h7 (by rw [← e, Char.ofNat_toNat])
  have hc : c.toNat ≠ 0x7D := fun e => h8 (by rw [← e, Char.ofNat_toNat])
  rw [tokens.eq_def]
  split <;> simp_all

/-- A run of other characters is gathered into the word in hand. -/
theorem tokens_word {w : Text} (h : ∀ c ∈ w, c ∉ separators) (rest acc : Text) :
    tokens (w ++ rest) acc = tokens rest (w.reverse ++ acc) := by
  induction w generalizing acc with
  | nil => rfl
  | cons c w ih =>
    rw [List.cons_append, tokens_cons (h c (by simp)), ih fun c hc => h c (by simp [hc])]
    simp

theorem tokens_blank (rest acc : Text) : tokens (' ' :: rest) acc = endWord acc (tokens rest []) := by
  simp [tokens]

theorem tokens_blanks (k : Nat) (rest : Text) : tokens (List.replicate k ' ' ++ rest) [] = tokens rest [] := by
  induction k with
  | zero => rfl
  | succ k ih => rw [List.replicate_succ, List.cons_append, tokens_blank, ih]; rfl

theorem tokens_comma (rest acc : Text) :
    tokens (',' :: rest) acc = endWord acc (.comma :: tokens rest []) := by simp [tokens]

theorem tokens_bars (rest acc : Text) :
    tokens ('|' :: '|' :: rest) acc = endWord acc (.bars :: tokens rest []) := by simp [tokens]

theorem tokens_comment (rest acc : Text) : tokens (';' :: rest) acc = endWord acc [] := by simp [tokens]

theorem tokens_opening (rest acc : Text) :
    tokens (Char.ofNat 0x7B :: rest) acc = endWord acc (.opening :: tokens rest []) := by
  simp [tokens]

theorem tokens_closing (rest acc : Text) :
    tokens (Char.ofNat 0x7D :: rest) acc = endWord acc (.closing :: tokens rest []) := by
  simp [tokens]

/-- The quotes win over whatever stands between them. -/
theorem tokens_quoted (c : Char) (rest acc : Text) :
    tokens ('\'' :: c :: '\'' :: rest) acc = endWord acc (.quoted c :: tokens rest []) := by
  simp [tokens]

theorem endWord_reverse {w : Text} (h : w ≠ []) (rest : List Token) :
    endWord (w.reverse ++ []) rest = .word w :: rest := by simp [endWord, h]

/-! ### Numbers -/

/-- A digit of a base of at most 16, in either case, has its value and is no separator. -/
theorem digitIn_digitChar {base d : Nat} {c : Char} (hb : base ≤ 16) (hd : d < base)
    (hc : c = d.digitChar ∨ c = d.digitChar.toUpper) :
    digitIn base c = some d ∧ c ∉ separators ∧ c ≠ 'x' := by
  have : d < 16 := by omega
  rcases hc with rfl | rfl <;> interval_cases d <;>
    refine ⟨?_, by decide, by decide⟩ <;> simp [digitIn, Nat.digitChar, hd]

theorem numeralIn_of_spells {base n : Nat} {t : Text} (hb : base ≤ 16) (h : SpellsDigits base t n) :
    numeralIn base t = some n ∧ t ≠ [] ∧ ∀ c ∈ t, c ∉ separators ∧ c ≠ 'x' := by
  obtain ⟨ds, hne, hall, rfl⟩ := h
  have fold : ∀ acc, t.foldl (fun acc c => acc.bind fun n => (digitIn base c).map fun d => base * n + d) (some acc) =
      some (ds.foldl (fun acc d => base * acc + d) acc) := by
    clear hne
    induction hall with
    | nil => intro acc; rfl
    | cons hd _ ih =>
      intro acc
      simp only [List.foldl_cons, Option.bind_some, (digitIn_digitChar hb hd.1 hd.2).1, Option.map_some]
      exact ih _
  refine ⟨fold 0, ?_, ?_⟩
  · rintro rfl; cases hall; exact hne rfl
  · clear hne fold
    induction hall with
    | nil => simp
    | cons hd _ ih =>
      intro c hc
      rcases List.mem_cons.1 hc with rfl | hc
      · exact (digitIn_digitChar hb hd.1 hd.2).2
      · exact ih c hc

/-- A written number is read as its value, and is one word. -/
theorem numberOf_of_spells {t : Text} {n : Nat} (h : SpellsNumber t n) :
    numberOf t = some n ∧ t ≠ [] ∧ ∀ c ∈ t, c ∉ separators := by
  rcases h with h | ⟨u, rfl, h⟩
  · obtain ⟨hn, hne, hc⟩ := numeralIn_of_spells (by omega) h
    refine ⟨?_, hne, fun c m => (hc c m).1⟩
    unfold numberOf
    split
    · exact absurd rfl hne
    · exact absurd rfl (hc 'x' (by simp)).2
    · exact hn
  · obtain ⟨hn, hne, hc⟩ := numeralIn_of_spells (by omega) h
    refine ⟨?_, by simp, ?_⟩
    · cases u with
      | nil => exact absurd rfl hne
      | cons d ds => exact hn
    · intro c m
      rcases List.mem_cons.1 m with rfl | m
      · decide
      rcases List.mem_cons.1 m with rfl | m
      · decide
      · exact (hc c m).1

/-- A written number and what ends it: one word token. -/
theorem tokens_number {t : Text} {n : Nat} (h : SpellsNumber t n) {rest : Text} {after : List Token}
    (e : ∀ acc, tokens rest acc = endWord acc after) : tokens (t ++ rest) [] = .word t :: after := by
  obtain ⟨-, hne, hc⟩ := numberOf_of_spells h
  rw [tokens_word hc, e, endWord_reverse hne]

end Sys2Proof.Machine
end

