-- ==== Sys2Proof/Laws/Decode.lean ====
section
/-!
SUPPORT. Fields of an encoded word (spec/30_encoding.md R61 to R63), and what a decoded word can be.
-/

namespace Sys2Proof

@[simp] theorem opOf_encodeN (op : BitVec 4) : opOf (encodeN op) = op := by
  apply BitVec.eq_of_getLsbD_eq; intro i hi
  interval_cases i <;> simp [opOf, encodeN]

@[simp] theorem rsvN_encodeN (op : BitVec 4) : rsvN (encodeN op) = 0#28 := by
  apply BitVec.eq_of_getLsbD_eq; intro i hi
  simp [rsvN, encodeN, hi]

@[simp] theorem opOf_encodeG (op : BitVec 4) (sym : Nat) : opOf (encodeG op sym) = op := by
  apply BitVec.eq_of_getLsbD_eq; intro i hi
  interval_cases i <;> simp [opOf, encodeG]

@[simp] theorem rsvG_encodeG (op : BitVec 4) (sym : Nat) : rsvG (encodeG op sym) = 0#20 := by
  apply BitVec.eq_of_getLsbD_eq; intro i hi
  simp [rsvG, encodeG]
  grind

@[simp] theorem symOf_encodeG (op : BitVec 4) (sym : Nat) : symOf (encodeG op sym) = sym % 256 := by
  have : (encodeG op sym).extractLsb' 0 8 = BitVec.ofNat 8 sym := by
    apply BitVec.eq_of_getLsbD_eq; intro i hi
    interval_cases i <;> simp [encodeG]
  simp [symOf, this]

@[simp] theorem opOf_encodeP (op : BitVec 4) (v : Bool) (x y : Nat) : opOf (encodeP op v x y) = op := by
  apply BitVec.eq_of_getLsbD_eq; intro i hi
  interval_cases i <;> simp [opOf, encodeP]

@[simp] theorem rsvP_encodeP (op : BitVec 4) (v : Bool) (x y : Nat) : rsvP (encodeP op v x y) = 0#3 := by
  apply BitVec.eq_of_getLsbD_eq; intro i hi
  interval_cases i <;> simp [rsvP, encodeP]

@[simp] theorem vOf_encodeP (op : BitVec 4) (v : Bool) (x y : Nat) : vOf (encodeP op v x y) = v := by
  simp [vOf, encodeP]

@[simp] theorem yOf_encodeP (op : BitVec 4) (v : Bool) (x y : Nat) : yOf (encodeP op v x y) = y % 4096 := by
  have : (encodeP op v x y).extractLsb' 12 12 = BitVec.ofNat 12 y := by
    apply BitVec.eq_of_getLsbD_eq; intro i hi
    simp [encodeP]
    grind
  simp [yOf, this]

@[simp] theorem xOf_encodeP (op : BitVec 4) (v : Bool) (x y : Nat) : xOf (encodeP op v x y) = x % 4096 := by
  have : (encodeP op v x y).extractLsb' 0 12 = BitVec.ofNat 12 x := by
    apply BitVec.eq_of_getLsbD_eq; intro i hi
    interval_cases i <;> simp [encodeP]
  simp [xOf, this]

theorem coordFits_iff {x y : Nat} : coordFits x y = true ↔ x < 4096 ∧ y < 4096 := by
  rw [coordFits, Bool.and_eq_true, decide_eq_true_iff, decide_eq_true_iff]; rfl

theorem symFits_iff {sym : Nat} : symFits sym = true ↔ sym < 256 := by
  rw [symFits, decide_eq_true_iff]; rfl

/-- A word accepted on a port is an operation of that port (R66). -/
theorem accept_ok {p : Port} {w : Word} {i : Instr} :
    accept p w = .ok i ↔ decode w = .ok i ∧ i.port = p := by
  unfold accept
  cases decode w with
  | error e => simp
  | ok j => by_cases h : j.port = p <;> simp [h] <;> grind

/-- A word is reserved on a port when it decodes to nothing, or to an operation of another port (R67). -/
theorem accept_error_or_ok (p : Port) (w : Word) :
    (∃ i, accept p w = .ok i) ∨ ∃ e, accept p w = .error e := by
  cases h : accept p w with
  | ok i => exact .inl ⟨i, rfl⟩
  | error e => exact .inr ⟨e, rfl⟩

end Sys2Proof
end

