-- ==== Sys2Proof/Laws/Operands.lean ====
section
/-!
SUPPORT. The address mapper, the keys and the table lookup, said once (spec/40_address_mapper.md R80;
spec/43_glyph_table.md R143, R144).
-/

namespace Sys2Proof.Machine

/-- The mapper in numbers (R80). -/
theorem index_eq (x y : Nat) : index x y = x % 64 + y % 32 * 64 := rfl

/-- A mapped index is a cell: one chokepoint guarantees in-range access (R40). -/
theorem index_lt (x y : Nat) : index x y < 2048 := by rw [index_eq]; omega

/-- The number on `m_idx` is the index: 11 bits lose nothing. -/
theorem indexBits_toNat (x y : Nat) : (indexBits x y).toNat = index x y := by
  have := index_lt x y
  simp [indexBits]; omega

/-- What `Key` can answer (R143). -/
theorem key_cases (sym : Nat) :
    (48 ≤ sym ∧ sym ≤ 57 ∧ key sym = some (sym - 48)) ∨ (65 ≤ sym ∧ sym ≤ 70 ∧ key sym = some (sym - 65 + 10)) ∨
      (¬(48 ≤ sym ∧ sym ≤ 57) ∧ ¬(65 ≤ sym ∧ sym ≤ 70) ∧ key sym = none) := by
  unfold key; split_ifs <;> simp_all

/-- Every key names one of the sixteen entries (R140). -/
theorem key_lt {sym k : Nat} (h : key sym = some k) : k < 16 := by
  have := key_cases sym; grind

/-- What a lookup can answer (R144). -/
theorem lookup_cases (rom : GlyphRom) (sym : Nat) :
    (key sym = none ∧ lookup rom sym = .notFound) ∨
      ∃ k, k < 16 ∧ key sym = some k ∧ lookup rom sym = .found (romEntry rom k) := by
  unfold lookup
  cases h : key sym with
  | none => exact .inl ⟨rfl, rfl⟩
  | some k => exact .inr ⟨k, key_lt h, rfl, rfl⟩

/-- Row `r` of an entry (R140). -/
theorem romEntry_getElem (rom : GlyphRom) (k r : Nat) (h : r < 5) : (romEntry rom k)[r] = rom k r := by
  interval_cases r <;> rfl

/-- The cell at a column and a row is the mapped index of that coordinate (R22, R84). -/
theorem cellAt_eq_index (c r : Nat) (hc : c < 64) (hr : r < 32) : cellAt c r = index c r := by
  simp only [cellAt, index_eq, Config.columns]; omega

end Sys2Proof.Machine
end

