-- ==== Sys2Proof/Laws/State.lean ====
section
/-!
SUPPORT. One lemma per field per update of the state (spec/10_state.md R20; spec/30_encoding.md R66).
-/

namespace Sys2Proof.Machine

variable (s : State) (g : Grid) (idx : BitVec 11) (a : WriteRsp) (b : ReadRsp) (c : GlyphRsp) (w : Word)

@[simp] theorem setFb_fb : (s.setFb g).fb = g := rfl
@[simp] theorem setFb_host : (s.setFb g).host = s.host := rfl
@[simp] theorem setFb_wData : (s.setFb g).wData = s.wData := rfl
@[simp] theorem setFb_out : (s.setFb g).out = s.out := rfl

@[simp] theorem respondM_fb : (s.respondM idx).fb = s.fb := rfl
@[simp] theorem respondM_host : (s.respondM idx).host = s.host := rfl
@[simp] theorem respondM_wData : (s.respondM idx).wData = s.wData := rfl
@[simp] theorem respondM_out_m : (s.respondM idx).out.m = some idx := rfl
@[simp] theorem respondM_out_w : (s.respondM idx).out.w = s.out.w := rfl
@[simp] theorem respondM_out_r : (s.respondM idx).out.r = s.out.r := rfl
@[simp] theorem respondM_out_g : (s.respondM idx).out.g = s.out.g := rfl

@[simp] theorem respondW_fb : (s.respondW a).fb = s.fb := rfl
@[simp] theorem respondW_host : (s.respondW a).host = s.host := rfl
@[simp] theorem respondW_wData : (s.respondW a).wData = s.wData := rfl
@[simp] theorem respondW_out_m : (s.respondW a).out.m = s.out.m := rfl
@[simp] theorem respondW_out_w : (s.respondW a).out.w = some a := rfl
@[simp] theorem respondW_out_r : (s.respondW a).out.r = s.out.r := rfl
@[simp] theorem respondW_out_g : (s.respondW a).out.g = s.out.g := rfl

@[simp] theorem respondR_fb : (s.respondR b).fb = s.fb := rfl
@[simp] theorem respondR_host : (s.respondR b).host = s.host := rfl
@[simp] theorem respondR_wData : (s.respondR b).wData = s.wData := rfl
@[simp] theorem respondR_out_m : (s.respondR b).out.m = s.out.m := rfl
@[simp] theorem respondR_out_w : (s.respondR b).out.w = s.out.w := rfl
@[simp] theorem respondR_out_r : (s.respondR b).out.r = some b := rfl
@[simp] theorem respondR_out_g : (s.respondR b).out.g = s.out.g := rfl

@[simp] theorem respondG_fb : (s.respondG c).fb = s.fb := rfl
@[simp] theorem respondG_host : (s.respondG c).host = s.host := rfl
@[simp] theorem respondG_wData : (s.respondG c).wData = s.wData := rfl
@[simp] theorem respondG_out_m : (s.respondG c).out.m = s.out.m := rfl
@[simp] theorem respondG_out_w : (s.respondG c).out.w = s.out.w := rfl
@[simp] theorem respondG_out_r : (s.respondG c).out.r = s.out.r := rfl
@[simp] theorem respondG_out_g : (s.respondG c).out.g = some c := rfl

@[simp] theorem clearCells_fb : s.clearCells.fb = 0#2048 := rfl
@[simp] theorem clearCells_host : s.clearCells.host = s.host := rfl
@[simp] theorem clearCells_wData : s.clearCells.wData = s.wData := rfl
@[simp] theorem clearCells_out : s.clearCells.out = s.out := rfl

@[simp] theorem beginStep_fb : s.beginStep.fb = s.fb := rfl
@[simp] theorem beginStep_host : s.beginStep.host = s.host.tail := rfl
@[simp] theorem beginStep_wData : s.beginStep.wData = s.nextIn.wData := rfl
@[simp] theorem beginStep_out : s.beginStep.out = Outputs.silent := rfl

@[simp] theorem presentWord_fb : (s.presentWord w).fb = s.fb := rfl
@[simp] theorem presentWord_host :
    (s.presentWord w).host = StepIn.single (wordPort w) w s.wData :: s.host := rfl
@[simp] theorem presentWord_wData : (s.presentWord w).wData = s.wData := rfl
@[simp] theorem presentWord_out : (s.presentWord w).out = s.out := rfl

@[simp] theorem silent_m : Outputs.silent.m = none := rfl
@[simp] theorem silent_w : Outputs.silent.w = none := rfl
@[simp] theorem silent_r : Outputs.silent.r = none := rfl
@[simp] theorem silent_g : Outputs.silent.g = none := rfl

@[simp] theorem reset_fb : State.reset.fb = 0#2048 := rfl
@[simp] theorem reset_host : State.reset.host = [] := rfl
@[simp] theorem reset_wData : State.reset.wData = 0#2048 := rfl
@[simp] theorem reset_out : State.reset.out = Outputs.silent := rfl

end Sys2Proof.Machine
end

