-- ==== Sys2Proof/Laws/Ops.lean ====
section
/-!
SUPPORT. What each named operation over the cells and the pins does, said once (spec/00_scope.md R9;
spec/20_memory.md R43, R48).
-/

namespace Sys2Proof.Machine

/-! ### Cells -/

/-- A read after a write: the written cell has the value, every other cell is as it was. -/
theorem memReadCell_memWriteCell (g : Grid) (i j : Nat) (v : Bool) (hj : j < 2048) :
    memReadCell (memWriteCell g i v) j = if j = i then v else memReadCell g j := by
  unfold memReadCell memWriteCell
  cases v <;> simp [hj] <;> grind

@[simp] theorem memReadCell_memWriteAll (g s : Grid) (i : Nat) :
    memReadCell (memWriteAll g s) i = memReadCell s i := rfl

@[simp] theorem memReadAll_eq (g : Grid) : memReadAll g = g := rfl

@[simp] theorem memReadCell_zero (i : Nat) : memReadCell 0#2048 i = false := by simp [memReadCell]

/-- No cell exists past 2047; the model reads it as off. -/
theorem memReadCell_of_ge (g : Grid) (i : Nat) (h : 2048 ≤ i) : memReadCell g i = false := by
  simp [memReadCell, BitVec.getLsbD_of_ge _ _ h]

/-- Two states with equal bits at every position are the same state (R21 (c)). -/
theorem grid_ext {g h : Grid} (e : ∀ i, i < 2048 → memReadCell g i = memReadCell h i) : g = h :=
  BitVec.eq_of_getLsbD_eq fun i hi => e i hi

/-- Bit `k` of byte `j` of the bulk vector is cell `8*j + k`. -/
theorem gridByte_getLsbD (s : Grid) (j k : Nat) (hk : k < 8) :
    (gridByte s j).getLsbD k = memReadCell s (8 * j + k) := by
  simp [gridByte, memReadCell, hk]

/-! ### Outcomes -/

@[simp] theorem andThen_next (s : State) (f : State → Host.Outcome State Fault Refusal) :
    andThen (.next s) f = f s := rfl

@[simp] theorem andThen_refused (e : Refusal) (f : State → Host.Outcome State Fault Refusal) :
    andThen (.refused e) f = .refused e := rfl

/-! ### What the host presents -/

@[simp] theorem cmdOn_setCmd_same (inp : StepIn) (c : Option Word) (p : Port) :
    (inp.setCmd c p).cmdOn p = c := by cases p <;> rfl

theorem cmdOn_setCmd_other (inp : StepIn) (c : Option Word) {p q : Port} (h : q ≠ p) :
    (inp.setCmd c p).cmdOn q = inp.cmdOn q := by cases p <;> cases q <;> first | rfl | exact absurd rfl h

@[simp] theorem rst_setCmd (inp : StepIn) (c : Option Word) (p : Port) : (inp.setCmd c p).rst = inp.rst := by
  cases p <;> rfl

@[simp] theorem wData_setCmd (inp : StepIn) (c : Option Word) (p : Port) :
    (inp.setCmd c p).wData = inp.wData := by cases p <;> rfl

@[simp] theorem cmdOn_single_same (p : Port) (w : Word) (d : Grid) :
    (StepIn.single p w d).cmdOn p = some w := by simp [StepIn.single]

theorem cmdOn_single_other (w : Word) (d : Grid) {p q : Port} (h : q ≠ p) :
    (StepIn.single p w d).cmdOn q = none := by
  rw [StepIn.single, cmdOn_setCmd_other _ _ h]; cases q <;> rfl

@[simp] theorem rst_single (p : Port) (w : Word) (d : Grid) : (StepIn.single p w d).rst = false := by
  simp [StepIn.single, StepIn.idle]

@[simp] theorem wData_single (p : Port) (w : Word) (d : Grid) : (StepIn.single p w d).wData = d := by
  simp [StepIn.single]

@[simp] theorem cmdOn_idle (p : Port) : StepIn.idle.cmdOn p = none := by cases p <;> rfl

theorem nextIn_cons {s : State} {inp : StepIn} {rest : List StepIn} (h : s.host = inp :: rest) :
    s.nextIn = inp := by simp [State.nextIn, h]

theorem nextIn_nil {s : State} (h : s.host = []) : s.nextIn = StepIn.idle := by simp [State.nextIn, h]

/-! ### The pins -/

/-- Row `i` of the five stands on bits `8*i` to `8*i + 7` (R68). -/
theorem packRows_getLsbD (rows : Vector Byte 5) (i k : Nat) (hi : i < 5) (hk : k < 8) :
    (packRows rows).getLsbD (8 * i + k) = rows[i].getLsbD k := by
  unfold packRows
  interval_cases i <;> simp <;> grind

end Sys2Proof.Machine
end

