-- ==== Sys2Proof/Laws/Exec.lean ====
section
/-!
SUPPORT. What each operation does to the state, as an equation, and what all of them leave alone
(spec/20_memory.md R41; spec/60_exceptions.md R160).
-/

namespace Sys2Proof.Machine

variable (s : State)

@[simp] theorem exec_new : exec .new s = .next (s.clearCells.respondW .ack) := rfl
@[simp] theorem exec_setp (x y : Nat) (v : Bool) : exec (.setp x y v) s =
    .next ((s.setFb (memWriteCell s.fb (index x y) v)).respondW (.status statusOk)) := rfl
@[simp] theorem exec_getp (x y : Nat) :
    exec (.getp x y) s = .next (s.respondR (.bit (memReadCell s.fb (index x y)))) := rfl
@[simp] theorem exec_glyph (sym : Nat) :
    exec (.glyph sym) s = .next (s.respondG (lookup glyphRom sym)) := rfl
@[simp] theorem exec_gets : exec .gets s = .next (s.respondR (.cells s.fb)) := rfl
@[simp] theorem exec_puts : exec .puts s = .next ((s.setFb s.wData).respondW .ack) := rfl
@[simp] theorem exec_rend : exec .rend s = .next (s.respondR (.text (render s.fb))) := rfl
@[simp] theorem exec_map (x y : Nat) : exec (.map x y) s = .next (s.respondM (indexBits x y)) := rfl

/-- No operation leaves the block without a next state (R160). -/
theorem exec_completes (i : Instr) : ∃ t, exec i s = .next t := by cases i <;> exact ⟨_, rfl⟩

/-- What an operation leaves alone: what the host presents, the responses of other ports, and the cells unless it
is one of the write port's (R41). -/
theorem exec_frame {i : Instr} {s t : State} (h : exec i s = .next t) :
    t.host = s.host ∧ t.wData = s.wData ∧ (i.port ≠ .w → t.fb = s.fb) ∧ (i.port ≠ .m → t.out.m = s.out.m) ∧
      (i.port ≠ .w → t.out.w = s.out.w) ∧ (i.port ≠ .r → t.out.r = s.out.r) ∧
      (i.port ≠ .g → t.out.g = s.out.g) := by
  cases i <;> cases h <;> simp [Instr.port]

/-- An operation's effect on the cells and its response depend on the cells and on `w_data` alone. -/
theorem exec_congr {i : Instr} {s s' t t' : State} (hf : s.fb = s'.fb) (hd : s.wData = s'.wData)
    (h : exec i s = .next t) (h' : exec i s' = .next t') :
    (i.port = .w → t.fb = t'.fb ∧ t.out.w = t'.out.w) ∧ (i.port = .r → t.out.r = t'.out.r) ∧
      (i.port = .m → t.out.m = t'.out.m) ∧ (i.port = .g → t.out.g = t'.out.g) := by
  cases i <;> cases h <;> cases h' <;> simp [Instr.port, hf, hd]

end Sys2Proof.Machine
end

