-- ==== Sys2Proof/Laws/PerInstr.lean ====
section
/-!
SUPPORT. For every operation, by its constructor: the port read from its word's `op` is the port that accepts
it (spec/30_encoding.md R65, R66).
-/

namespace Sys2Proof.Laws.PortOfWord

/-- The word of an operation is one for the port that accepts the operation. -/
def Statement (i : Instr) : Prop := wordPort (encode i) = i.port

theorem new : Statement .new := by simp [Statement, wordPort, encode, Instr.port]
theorem setp (x y : Nat) (v : Bool) : Statement (.setp x y v) := by
  simp [Statement, wordPort, encode, Instr.port]
theorem getp (x y : Nat) : Statement (.getp x y) := by simp [Statement, wordPort, encode, Instr.port]
theorem glyph (sym : Nat) : Statement (.glyph sym) := by simp [Statement, wordPort, encode, Instr.port]
theorem gets : Statement .gets := by simp [Statement, wordPort, encode, Instr.port]
theorem puts : Statement .puts := by simp [Statement, wordPort, encode, Instr.port]
theorem rend : Statement .rend := by simp [Statement, wordPort, encode, Instr.port]
theorem map (x y : Nat) : Statement (.map x y) := by simp [Statement, wordPort, encode, Instr.port]

end Sys2Proof.Laws.PortOfWord
end

