-- ==== Sys2Proof/Laws/Step.lean ====
section
/-!
SUPPORT. What a port, a transition and a step can do, each said once (spec/20_memory.md R48; spec/30_encoding.md
R67; spec/70_reset_and_hazards.md R180).
-/

namespace Sys2Proof.Machine

/-! ### What is accepted, and what is reserved -/

theorem acceptedOn_some {p : Port} {c : Option Word} {i : Instr} :
    acceptedOn p c = some i ↔ ∃ w, c = some w ∧ accept p w = .ok i := by
  cases c with
  | none => simp [acceptedOn]
  | some w => cases h : accept p w <;> simp [acceptedOn, Except.toOption, h]

theorem acceptedOn_port {p : Port} {c : Option Word} {i : Instr} (h : acceptedOn p c = some i) :
    i.port = p := by
  obtain ⟨w, -, hw⟩ := acceptedOn_some.1 h
  exact (accept_ok.1 hw).2

@[simp] theorem cmdOn_m (inp : StepIn) : inp.cmdOn .m = inp.mCmd := rfl
@[simp] theorem cmdOn_w (inp : StepIn) : inp.cmdOn .w = inp.wCmd := rfl
@[simp] theorem cmdOn_r (inp : StepIn) : inp.cmdOn .r = inp.rCmd := rfl
@[simp] theorem cmdOn_g (inp : StepIn) : inp.cmdOn .g = inp.gCmd := rfl

@[simp] theorem acceptedOn_none (p : Port) : acceptedOn p none = none := rfl

@[simp] theorem reservedOn_none (p : Port) : reservedOn p none = none := rfl

theorem reservedOn_some {p : Port} {c : Option Word} {e : Reserved} :
    reservedOn p c = some e ↔ ∃ w, c = some w ∧ accept p w = .error e := by
  cases c with
  | none => simp
  | some w => cases h : accept p w <;> simp [reservedOn, h]

/-- A reserved word is not executed (R67). -/
theorem acceptedOn_of_reserved {p : Port} {c : Option Word} {e : Reserved} (h : reservedOn p c = some e) :
    acceptedOn p c = none := by
  obtain ⟨w, rfl, hw⟩ := reservedOn_some.1 h
  simp [acceptedOn, hw, Except.toOption]

/-- No word is found reserved exactly when no port carries a reserved word. -/
theorem firstReserved_eq_none {inp : StepIn} :
    inp.firstReserved = none ↔ ∀ p, reservedOn p (inp.cmdOn p) = none := by
  simp only [StepIn.firstReserved, List.findSome?_eq_none_iff, Option.map_eq_none_iff]
  constructor
  · intro h p; exact h p (by cases p <;> simp)
  · intro h p _; exact h p

/-- A reserved word found is one that its port carries. -/
theorem firstReserved_eq_some {inp : StepIn} {p : Port} {e : Reserved} (h : inp.firstReserved = some (p, e)) :
    reservedOn p (inp.cmdOn p) = some e := by
  obtain ⟨q, -, hq⟩ := List.exists_of_findSome?_eq_some h
  obtain ⟨e', he', hpe⟩ := Option.map_eq_some_iff.1 hq
  cases hpe; exact he'

/-- A step is clean when it is a reset or no port carries a reserved word (R167 (b), R180). -/
theorem clean_iff {inp : StepIn} :
    inp.clean = true ↔ inp.rst = true ∨ ∀ p, reservedOn p (inp.cmdOn p) = none := by
  rw [← firstReserved_eq_none]; simp [StepIn.clean]

/-! ### One port -/

/-- A port with nothing to execute leaves the state as it is; otherwise its operation is executed. -/
theorem runPort_cases (inp : StepIn) (p : Port) (s : State) :
    (acceptedOn p (inp.cmdOn p) = none ∧ runPort inp p s = .next s) ∨
      ∃ i, acceptedOn p (inp.cmdOn p) = some i ∧ i.port = p ∧ runPort inp p s = exec i s := by
  unfold runPort
  cases h : acceptedOn p (inp.cmdOn p) with
  | none => exact .inl ⟨rfl, rfl⟩
  | some i => exact .inr ⟨i, rfl, acceptedOn_port h, rfl⟩

theorem runPort_completes (inp : StepIn) (p : Port) (s : State) : ∃ t, runPort inp p s = .next t := by
  rcases runPort_cases inp p s with ⟨-, h⟩ | ⟨i, -, -, h⟩ <;> rw [h]
  · exact ⟨s, rfl⟩
  · exact exec_completes s i

/-- What a port leaves alone (R41, R48). -/
theorem runPort_frame {inp : StepIn} {p : Port} {s t : State} (h : runPort inp p s = .next t) :
    t.host = s.host ∧ t.wData = s.wData ∧ (p ≠ .w → t.fb = s.fb) ∧ (p ≠ .m → t.out.m = s.out.m) ∧
      (p ≠ .w → t.out.w = s.out.w) ∧ (p ≠ .r → t.out.r = s.out.r) ∧ (p ≠ .g → t.out.g = s.out.g) := by
  rcases runPort_cases inp p s with ⟨-, h'⟩ | ⟨i, -, rfl, h'⟩ <;> rw [h] at h'
  · cases h'; simp
  · exact exec_frame h'.symm

/-- A port's result depends on the cells, on `w_data` and on the response it had before alone. -/
theorem runPort_congr {inp : StepIn} {p : Port} {s s' t t' : State} (hf : s.fb = s'.fb)
    (hd : s.wData = s'.wData) (h : runPort inp p s = .next t) (h' : runPort inp p s' = .next t') :
    (p = .w → s.out.w = s'.out.w → t.fb = t'.fb ∧ t.out.w = t'.out.w) ∧
      (p = .r → s.out.r = s'.out.r → t.out.r = t'.out.r) ∧
      (p = .m → s.out.m = s'.out.m → t.out.m = t'.out.m) ∧
      (p = .g → s.out.g = s'.out.g → t.out.g = t'.out.g) := by
  unfold runPort at h h'
  cases ha : acceptedOn p (inp.cmdOn p) with
  | none => rw [ha] at h h'; cases h; cases h'; simp_all
  | some i =>
    rw [ha] at h h'
    obtain ⟨a, b, c, d⟩ := exec_congr hf hd h h'
    have := acceptedOn_port ha
    exact ⟨fun e _ => a (by simp_all), fun e _ => b (by simp_all), fun e _ => c (by simp_all),
      fun e _ => d (by simp_all)⟩

/-! ### The transition -/

/-- All that a transition does (R48): each port's response is the one its command gives on the state before,
and the cells are those that the write port's command leaves. -/
theorem transition_spec (inp : StepIn) (s : State) :
    ∃ t r m g w, transition inp s = .next t ∧ runPort inp .r s = .next r ∧ runPort inp .m s = .next m ∧
      runPort inp .g s = .next g ∧ runPort inp .w s = .next w ∧ t.fb = w.fb ∧ t.out.r = r.out.r ∧
      t.out.m = m.out.m ∧ t.out.g = g.out.g ∧ t.out.w = w.out.w ∧ t.host = s.host ∧ t.wData = s.wData := by
  obtain ⟨r, hr⟩ := runPort_completes inp .r s
  obtain ⟨m, hm⟩ := runPort_completes inp .m s
  obtain ⟨g, hg⟩ := runPort_completes inp .g s
  obtain ⟨w, hw⟩ := runPort_completes inp .w s
  obtain ⟨m', hm'⟩ := runPort_completes inp .m r
  obtain ⟨g', hg'⟩ := runPort_completes inp .g m'
  obtain ⟨t, ht⟩ := runPort_completes inp .w g'
  have fr := runPort_frame hr
  have fm := runPort_frame hm'
  have fg := runPort_frame hg'
  have fw := runPort_frame ht
  simp only [ne_eq, reduceCtorEq, not_false_eq_true, forall_const, not_true_eq_false, false_implies, true_and,
    and_true] at fr fm fg fw
  have cm := runPort_congr (by simp_all) (by simp_all) hm' hm
  have cg := runPort_congr (by simp_all) (by simp_all) hg' hg
  have cw := runPort_congr (by simp_all) (by simp_all) ht hw
  refine ⟨t, r, m, g, w, ?_, hr, hm, hg, hw, ?_⟩
  · simp [transition, hr, hm', hg', ht]
  · have := cm.2.2.1 rfl (by simp_all)
    have := cg.2.2.2 rfl (by simp_all)
    have := cw.1 rfl (by simp_all)
    simp_all

/-! ### One step -/

/-- A step with one word on one port executes that port alone. -/
theorem transition_single (p : Port) (w : Word) (d : Grid) (s : State) :
    transition (StepIn.single p w d) s = runPort (StepIn.single p w d) p s := by
  have other : ∀ q, q ≠ p → ∀ u, runPort (StepIn.single p w d) q u = .next u := by
    intro q hq u; unfold runPort; rw [cmdOn_single_other _ _ hq]; rfl
  obtain ⟨t, ht⟩ := runPort_completes (StepIn.single p w d) p s
  cases p <;> simp [transition, other, ht]

/-- What a step can do: a reset, the refusal of a reserved word, or a transition (R48, R67, R180). -/
theorem step_cases (s : State) :
    (s.nextIn.rst = true ∧ step s = .next s.beginStep.clearCells) ∨
      (s.nextIn.rst = false ∧ ∃ p e, reservedOn p (s.nextIn.cmdOn p) = some e ∧
        step s = .refused (.reservedWord p e)) ∨
      (s.nextIn.rst = false ∧ (∀ p, reservedOn p (s.nextIn.cmdOn p) = none) ∧
        step s = transition s.nextIn s.beginStep) := by
  unfold step runStep
  by_cases hr : s.nextIn.rst = true
  · simp [hr]
  · cases hf : s.nextIn.firstReserved with
    | none => exact .inr (.inr ⟨by simpa using hr, firstReserved_eq_none.1 hf, by simp [hr]⟩)
    | some pe =>
      obtain ⟨p, e⟩ := pe
      exact .inr (.inl ⟨by simpa using hr, p, e, firstReserved_eq_some hf, by simp [hr]⟩)

/-- A step takes one entry off what the host presents. -/
theorem step_host {s t : State} (h : step s = .next t) : t.host = s.host.tail := by
  rcases step_cases s with ⟨-, e⟩ | ⟨-, p, r, -, e⟩ | ⟨-, -, e⟩ <;> rw [h] at e
  · cases e; rfl
  · cases e
  · obtain ⟨t', -, -, -, -, ht, -, -, -, -, -, -, -, -, -, hh, -⟩ := transition_spec s.nextIn s.beginStep
    rw [ht] at e; cases e; exact hh

/-! ### Runs -/

@[simp] theorem runSteps_zero (s : State) : runSteps 0 s = .next s := rfl

theorem runSteps_succ {k : Nat} {s t : State} (h : step s = .next t) : runSteps (k + 1) s = runSteps k t := by
  simp [runSteps, h]

/-- A run that completes begins with a step that does. -/
theorem runSteps_succ_next {k : Nat} {s u : State} (h : runSteps (k + 1) s = .next u) :
    ∃ t, step s = .next t ∧ runSteps k t = .next u := by
  cases hs : step s with
  | next t => exact ⟨t, rfl, by rwa [runSteps_succ hs] at h⟩
  | fault e => exact nomatch e
  | refused e => simp [runSteps, hs] at h

/-- A run is the run of its first part, then that of its second. -/
theorem runSteps_add {a : Nat} (b : Nat) {s t : State} (h : runSteps a s = .next t) :
    runSteps (a + b) s = runSteps b t := by
  induction a generalizing s with
  | zero => cases h; simp
  | succ n ih =>
    obtain ⟨u, hu, h'⟩ := runSteps_succ_next h
    rw [show n + 1 + b = n + b + 1 by omega, runSteps_succ hu]; exact ih h'

/-- The host's run of the machine is the same. -/
theorem core_run_eq (k : Nat) (s : State) : Host.Core.run core k s = runSteps k s := by
  induction k generalizing s with
  | zero => rfl
  | succ n ih =>
    cases hs : step s with
    | next t =>
      rw [runSteps_succ hs, ← ih]
      simp only [Host.Core.run, core, hs]
    | fault e => exact nomatch e
    | refused e => simp [Host.Core.run, runSteps, core, hs]

end Sys2Proof.Machine
end

