-- ==== Sys2Proof/Tests/Slice0.lean ====
section
/-!
SUPPORT. The model's own tests: expected values are those of spec/95_test_vectors.md (named T-, S-, P-) and of
spec/30_encoding.md section 8, and, last, for every statement with hypotheses a state or operands that meet them.
-/

namespace Sys2Proof.Tests

open Sys2Proof.Machine

/-- A state with the given cells on, and what the host presents. -/
def at0 (on : List Nat) (host : List StepIn) : State :=
  { fb := gridOf on, host := host, wData := 0#2048, out := Outputs.silent }

/-- What one may look at after a step that answers a next state. -/
def seen {α : Type} (f : State → α) : Host.Outcome State Fault Refusal → Option α
  | .next s => some (f s)
  | _ => none

/-- A step in which only a read and a write are presented. -/
def readWrite (r w : Instr) (data : Grid) : StepIn :=
  { StepIn.idle with rCmd := some (encode r), wCmd := some (encode w), wData := data }

/-! ### Well-formedness: an ill-formed term for each check -/

theorem test_wf_refuses_wide_x : (Instr.setp 4096 0 true).wf = false := by decide
theorem test_wf_refuses_wide_y : (Instr.getp 0 4096).wf = false := by decide
theorem test_wf_refuses_wide_map : (Instr.map 4096 4096).wf = false := by decide
theorem test_wf_refuses_wide_symbol : (Instr.glyph 256).wf = false := by decide
theorem test_wf_admits_largest : (Instr.setp 4095 4095 true).wf = true ∧ (Instr.glyph 255).wf = true := by
  decide

/-! ### Decoding: words written out bit by bit from R61 to R65 -/

theorem test_decode_new : decode 0b00010000000000000000000000000000#32 = .ok .new := by decide
-- op 0010, rsv 000, v 1, y 000001000010 = 66, x 000010000001 = 129
theorem test_decode_setp : decode 0b00100001000001000010000010000001#32 = .ok (.setp 129 66 true) := by decide
-- op 0011, rsv 000, v 0, y 000000011100 = 28, x 000000110110 = 54
theorem test_decode_getp : decode 0b00110000000000011100000000110110#32 = .ok (.getp 54 28) := by decide
theorem test_decode_glyph : decode 0b01000000000000000000000001000001#32 = .ok (.glyph 0x41) := by decide
theorem test_decode_gets : decode 0b01010000000000000000000000000000#32 = .ok .gets := by decide
theorem test_decode_puts : decode 0b01100000000000000000000000000000#32 = .ok .puts := by decide
theorem test_decode_rend : decode 0b01110000000000000000000000000000#32 = .ok .rend := by decide
-- op 1000, rsv 000, v 0, y 000001000000 = 64, x 000010000001 = 129
theorem test_decode_map : decode 0b10000000000001000000000010000001#32 = .ok (.map 129 64) := by decide
theorem test_encode_setp : encode (.setp 129 66 true) = 0x21042081#32 := by decide
theorem test_encode_wide_coordinate : encode (.map (2 ^ 64 + 5) (2 ^ 64 + 3)) = encode (.map 5 3) := by
  decide +kernel

-- T-E1 to T-E11, each with the reason the table gives
theorem test_reserved_opcode : decode 0x00000000 = .error .opcode ∧ decode 0x90000000 = .error .opcode ∧
    decode 0xF0000000 = .error .opcode := by decide
theorem test_reserved_field : decode 0x10000001 = .error .field ∧ decode 0x22000000 = .error .field ∧
    decode 0x40000141 = .error .field := by decide
theorem test_reserved_value : decode 0x31000000 = .error .valueBit ∧ decode 0x81000000 = .error .valueBit := by
  decide
theorem test_reserved_port : accept .r 0x21000000 = .error .wrongPort ∧ accept .w 0x30000000 = .error .wrongPort ∧
    accept .m 0x40000041 = .error .wrongPort ∧ accept .g 0x80000000 = .error .wrongPort := by decide
theorem test_table_word : decodeTableWord 32 0x21042081 = some (.setp 129 66 true) ∧
    decodeTableWord 32 0x00000000 = none := by decide

/-! ### The mapper: T-M6, T-M10, T-M14, T-M20, T-M23, and the false variants F-M1, F-M5 -/

theorem test_index_wraps : index 64 0 = 0 ∧ index 64 31 = 1984 ∧ index 1000 1000 = 552 ∧
    index (2 ^ 64 + 5) (2 ^ 64 + 3) = 197 := by decide +kernel
theorem test_index_operands_differ : index 31 63 = 2015 ∧ index 40 5 = 360 ∧ index 5 40 = 517 := by decide
theorem test_map_answers : seen (·.out.m) (exec (.map 129 66) State.reset) = some (some 129#11) := by decide

/-! ### Single cells: T-P3, T-P12, T-P16, S9 to S12 -/

theorem test_setp_wraps : seen (·.fb) (exec (.setp 129 66 true) (at0 [0] [])) = some (gridOf [0, 129]) := by
  decide +kernel
theorem test_setp_overwrites : seen (·.fb) (exec (.setp 64 0 false) (at0 [0, 1846] [])) = some (gridOf [1846]) ∧
    seen (·.fb) (exec (.setp 1 2 true) (at0 [129] [])) = some (gridOf [129]) := by decide +kernel
theorem test_getp_mid_grid : seen (·.out.r) (exec (.getp 54 28) (at0 [1846] [])) = some (some (.bit true)) ∧
    seen (·.out.r) (exec (.getp 53 28) (at0 [1846] [])) = some (some (.bit false)) := by decide +kernel
theorem test_getp_alias : seen (·.out.r) (exec (.getp 4095 4095) (at0 [2047] [])) = some (some (.bit true)) := by
  decide +kernel
theorem test_new_clears : seen (·.fb) (exec .new (at0 [0, 129] [])) = some 0#2048 := by decide +kernel

/-! ### All cells: T-B2, T-B3, T-B8, T-B10, T-B11, F-B1 -/

theorem test_gets_number : seen (·.out.r) (exec .gets (at0 [0, 129] [])) =
    some (some (.cells (BitVec.ofNat 2048 (2 ^ 129 + 1)))) := by decide +kernel
theorem test_puts_replaces :
    seen (·.fb) (exec .puts { at0 [5] [] with wData := BitVec.ofNat 2048 (2 ^ 2047 + 1) }) =
      some (gridOf [0, 2047]) := by decide +kernel
theorem test_render_first_cell : (renderWith ['#'] [' '] (gridOf [0])).take 130 =
    ['#'] ++ List.replicate 127 ' ' ++ ['\n', ' '] := by decide +kernel
theorem test_render_ends : (renderWith ['#'] [' '] (gridOf [63, 2047]))[126]? = some '#' ∧
    (renderWith ['#'] [' '] (gridOf [63, 2047]))[129 * 31 + 126]? = some '#' ∧
    (renderWith ['#'] [' '] (gridOf [64]))[129]? = some '#' := by decide +kernel

/-! ### Glyphs: T-G1 to T-G8 -/

theorem test_glyph_a : seen (·.out.g) (exec (.glyph 0x41) State.reset) =
    some (some (.found #v[0xF0#8, 0x90#8, 0xF0#8, 0x90#8, 0x90#8])) := by decide +kernel
theorem test_glyph_not_found : seen (·.out.g) (exec (.glyph 0x47) State.reset) = some (some .notFound) ∧
    seen (·.out.g) (exec (.glyph 0x0A) State.reset) = some (some .notFound) := by decide
theorem test_keys_at_their_ends : key 0x2F = none ∧ key 0x30 = some 0 ∧ key 0x39 = some 9 ∧ key 0x3A = none ∧
    key 0x40 = none ∧ key 0x41 = some 10 ∧ key 0x46 = some 15 ∧ key 0x47 = none ∧ key 0x61 = none := by decide
theorem test_default_table_pins : (busG (lookup defaultRom 0x30)).rows = 0xF0909090F0#40 ∧
    (busG (lookup defaultRom 0x46)).rows = 0x8080F080F0#40 ∧
    (busG (lookup defaultRom 0x31)).rows = 0x7020206020#40 ∧
    (busG (lookup defaultRom 0x37)).rows = 0x40402010F0#40 := by decide +kernel
theorem test_default_table_keeps_a : romEntry defaultRom 10 = romEntry glyphRom 10 := by decide +kernel
theorem test_default_table_low_nibbles :
    defaultRomRows.all (fun rows => rows.length = 5 ∧ rows.all fun b => b &&& 0x0F#8 = 0#8) = true := by
  decide +kernel

/-! ### Steps: T-X1, T-X5, T-X7, R180, R67 -/

theorem test_step_reads_first : seen (fun t => (t.fb, t.out.r, t.out.w))
    (step (at0 [325] [readWrite (.getp 5 5) (.setp 5 5 false) 0#2048])) =
      some (0#2048, some (.bit true), some (.status (.ok ()))) := by decide +kernel
theorem test_step_gets_beside_new : seen (fun t => (t.fb, t.out.r, t.out.w))
    (step (at0 [325] [readWrite .gets .new 0#2048])) =
      some (0#2048, some (.cells (gridOf [325])), some .ack) := by decide +kernel
theorem test_step_four_ports : seen (fun t => (t.fb, t.out.m, t.out.r, t.out.g))
    (step (at0 [325] [{ readWrite (.getp 5 5) (.setp 5 5 false) 0#2048 with
      mCmd := some 0x80005005#32, gCmd := some 0x40000041#32 }])) =
      some (0#2048, some 325#11, some (.bit true),
        some (.found #v[0xF0#8, 0x90#8, 0xF0#8, 0x90#8, 0x90#8])) := by decide +kernel
theorem test_step_reset_only : seen (fun t => (t.fb, t.out))
    (step (at0 [325] [{ readWrite .gets (.setp 1 1 true) 0#2048 with rst := true }])) =
      some (0#2048, Outputs.silent) := by decide +kernel
theorem test_step_refuses_reserved : step (at0 [] [StepIn.single .w 0x22000000#32 0#2048]) =
    .refused (.reservedWord .w .field) := by rfl
theorem test_placed_word_runs : seen (·.fb) (step (State.reset.withFetchWord 32 0x21042081)) =
    some (gridOf [129]) := by decide +kernel

/-! ### The host's pseudo-operation: P4, word by word; P5, its lit pixels -/

theorem test_drawhex_a_words : (drawHex glyphRom 0x41 62 30).map encode =
    [0x40000041#32, 0x2101E03E#32, 0x2101E03F#32, 0x2101E040#32, 0x2101E041#32, 0x2101F03E#32, 0x2001F03F#32,
     0x2001F040#32, 0x2101F041#32, 0x2102003E#32, 0x2102003F#32, 0x21020040#32, 0x21020041#32, 0x2102103E#32,
     0x2002103F#32, 0x20021040#32, 0x21021041#32, 0x2102203E#32, 0x2002203F#32, 0x20022040#32, 0x21022041#32] := by
  decide +kernel
theorem test_drawhex_seven_pixels :
    (drawHex defaultRom 0x37 0 0).filterMap (fun i => match i with
      | .setp x y true => some (index x y)
      | _ => none) = [0, 1, 2, 3, 67, 130, 193, 257] := by decide +kernel

/-! ### Command lines (R70) -/

theorem test_line_same_step :
    assembleLine ['G', 'E', 'T', 'P', ' ', '5', ',', ' ', '5', ' ', '|', '|', ' ', 'S', 'E', 'T', 'P', ' ', '5', ',',
      ' ', '0', 'x', '5', ',', ' ', '0', ' ', ';', 'T'] =
      some (readWrite (.getp 5 5) (.setp 5 5 false) 0#2048) := by decide +kernel
theorem test_line_glyph : assembleLine ['G', 'L', 'Y', 'P', 'H', ' ', '\'', 'A', '\''] =
    some (StepIn.single .g 0x40000041#32 0#2048) := by decide +kernel
theorem test_line_puts :
    assembleLine (['P', 'U', 'T', 'S', ' '] ++ [Char.ofNat 0x7B] ++ ['0', ',', '2', '0', '4', '7'] ++
      [Char.ofNat 0x7D]) = some (StepIn.single .w 0x60000000#32 (gridOf [0, 2047])) := by decide +kernel
-- What the template of R70 writes: several blanks, an empty set, a comment; and (log entry 13) quotes win over ';'
theorem test_line_template : assembleLine ['M', 'A', 'P', ' ', ' ', ' ', '5', ',', ' ', '3', ' ', ' ', ';', 'm'] =
    some (StepIn.single .m 0x80003005#32 0#2048) := by decide +kernel
theorem test_line_empty_set : assembleLine ['P', 'U', 'T', 'S', ' ', Char.ofNat 0x7B, Char.ofNat 0x7D] =
    some (StepIn.single .w 0x60000000#32 0#2048) := by decide +kernel
theorem test_line_quotes_win : assembleLine ['G', 'L', 'Y', 'P', 'H', ' ', '\'', ';', '\''] =
    some (StepIn.single .g 0x4000003B#32 0#2048) := by decide +kernel
theorem test_line_port_twice : assembleLine ['N', 'E', 'W', '|', '|', 'N', 'E', 'W'] = none := by decide +kernel

/-! ### For every statement with hypotheses: something that meets them -/

/-- A host that resets, writes through a wrapped coordinate, lets an idle step and a mapped coordinate pass, and
reads. -/
def script : List StepIn :=
  [StepIn.ofInstr (.setp 129 66 true) 0#2048, StepIn.idle, StepIn.ofInstr (.map 1 2) 0#2048,
   StepIn.ofInstr (.getp 129 66) 0#2048]

/-- A step with a command on every port, the operands at the ends of their fields. -/
def fourPorts : StepIn :=
  { readWrite .rend .puts 0#2048 with
    mCmd := some (encode (.map 0 4095))
    gCmd := some (encode (.glyph 255)) }

/-- A host that renders twice, with a read between. -/
def renders : List StepIn :=
  [StepIn.ofInstr .rend 0#2048, StepIn.ofInstr (.getp 0 0) 0#2048, StepIn.ofInstr .rend 0#2048]

theorem witness_reset_step : ∃ s inp rest, State.host s = inp :: rest ∧ inp.rst = true :=
  ⟨at0 [3] [{ StepIn.idle with rst := true }], _, _, rfl, rfl⟩

theorem witness_word_decodes : decode 0x21FFFFFF = .ok (.setp 4095 4095 true) := by decide

theorem witness_reserved_by_each_clause :
    accept .w 0x0FFFFFFF = .error .opcode ∧ accept .w 0x90000000 = .error .opcode ∧
      accept .m 0x82000000 = .error .field ∧ accept .g 0x40000100 = .error .field ∧
      accept .r 0x58000000 = .error .field ∧ accept .r 0x31000000 = .error .valueBit ∧
      accept .m 0x10000000 = .error .wrongPort ∧ accept .w 0x70000000 = .error .wrongPort ∧
      accept .r 0x40000041 = .error .wrongPort ∧ accept .g 0x80000000 = .error .wrongPort := by decide

theorem witness_truncated_symbol : ∀ sym, Instr.glyph 255 = .glyph sym → sym < 256 := by
  intro sym h; cases h; decide

theorem witness_cells_of_one_period : (63 < 64 ∧ 31 < 32 ∧ index 63 31 = 2047) ∧ index 0 0 = 0 := by decide

theorem witness_other_cell : 2047 < 2048 ∧ 2047 ≠ index 0 32 ∧ 0 ≠ index 4095 4095 := by decide

theorem witness_write_then_read : (at0 [129] script).host =
      StepIn.ofInstr (.setp 129 66 true) 0#2048 ::
        ([StepIn.idle, StepIn.ofInstr (.map 1 2) 0#2048] ++ StepIn.ofInstr (.getp 129 66) 0#2048 :: []) ∧
    script.all (·.clean) = true ∧ script.all (fun inp => !inp.rst) = true ∧
    (StepIn.ofInstr (.setp 129 66 true) 0#2048).wCmd = some (encode (.setp 129 66 true)) ∧
    [StepIn.idle, StepIn.ofInstr (.map 1 2) 0#2048].all (·.writesNothing) = true ∧
    (StepIn.ofInstr (.getp 129 66) 0#2048).rCmd = some (encode (.getp 129 66)) :=
  ⟨rfl, by decide, by decide, by decide, by decide, by decide⟩

theorem witness_read_after_write : ∃ t, exec (.setp 129 66 true) State.reset = .next t ∧
    (1 % 64 = 129 % 64 ∧ 2 % 32 = 66 % 32) ∧ ¬(2 % 64 = 129 % 64 ∧ 2 % 32 = 66 % 32) :=
  ⟨_, rfl, by decide, by decide⟩

theorem witness_bulk : ∃ s t u g, exec .gets s = .next t ∧ t.out.r = some (.cells g) ∧ exec .puts s = .next u :=
  ⟨at0 [0, 2047] [], _, _, _, rfl, rfl, rfl⟩

theorem witness_render_parameters : ['#'] ≠ Config.blank ∧ ['#'].length = Config.blank.length := by decide

theorem witness_renders : (at0 [64] renders).host = StepIn.ofInstr .rend 0#2048 ::
      ([StepIn.ofInstr (.getp 0 0) 0#2048] ++ StepIn.ofInstr .rend 0#2048 :: []) ∧
    renders.all (·.clean) = true ∧ renders.all (·.writesNothing) = true ∧
    (StepIn.ofInstr .rend 0#2048).rCmd = some (encode .rend) :=
  ⟨rfl, by decide, by decide, by decide⟩

theorem witness_keys : key 0x46 = some 15 ∧ key 0x47 = none ∧ Instr.port .puts = .w := by decide

theorem witness_status_steps :
    acceptedOn .w (at0 [] script).nextIn.wCmd = some (.setp 129 66 true) ∧ (at0 [] script).nextIn.rst = false ∧
      (∃ t, step (at0 [] script) = .next t) ∧
      acceptedOn .w (at0 [] [readWrite .gets .new 0#2048]).nextIn.wCmd = some .new ∧
      (∃ t, step (at0 [] [readWrite .gets .new 0#2048]) = .next t) ∧
      acceptedOn .w (at0 [] renders).nextIn.wCmd = none ∧ ∃ t, step (at0 [] renders) = .next t :=
  ⟨by decide, by decide, ⟨_, rfl⟩, by decide, ⟨_, rfl⟩, by decide, ⟨_, rfl⟩⟩

theorem witness_presented_operation : accept .r 0x3001C036 = .ok (.getp 54 28) ∧
    (at0 [] [StepIn.single .r 0x3001C036 0#2048]).host = StepIn.single .r 0x3001C036 0#2048 :: [] :=
  ⟨by decide, rfl⟩

theorem witness_operations_on_all_ports (p : Port) (w : Word)
    (h : fourPorts.cmdOn p = some w) :
    ∃ i : Instr, i.wf = true ∧ i.port = p ∧ w = encode i := by
  cases p <;> cases h
  · exact ⟨.map 0 4095, by decide, rfl, rfl⟩
  · exact ⟨.puts, rfl, rfl, rfl⟩
  · exact ⟨.rend, rfl, rfl, rfl⟩
  · exact ⟨.glyph 255, by decide, rfl, rfl⟩

theorem witness_clean_and_not : (at0 [] script).nextIn.clean = true ∧
    (at0 [] [StepIn.single .m 0x10000000 0#2048]).nextIn.clean = false := by decide

theorem witness_reserved_beside_others :
    reservedOn .m ({ readWrite .gets .new 0#2048 with mCmd := some 0x81000000 } : StepIn).mCmd =
      some .valueBit := by decide

theorem witness_step_with_all_ports (p : Port) :
    ∃ i, acceptedOn p (fourPorts.cmdOn p) = some i := by
  cases p <;> exact ⟨_, rfl⟩

theorem witness_read_and_write_accepted : accept .r (encode .rend) = .ok .rend ∧
    accept .w (encode .puts) = .ok .puts := by decide

theorem witness_same_cell : index 69 37 = index 5 5 ∧
    (at0 [325] [readWrite (.getp 69 37) (.setp 5 5 false) 0#2048]).host =
      [readWrite (.getp 69 37) (.setp 5 5 false) 0#2048] := ⟨by decide, rfl⟩

theorem witness_other_port : (Instr.glyph 0x41).port = .g ∧ (Instr.map 1 1).port = .m ∧
    Instr.new.port ≠ (Instr.glyph 0x41).port := by decide

theorem witness_cells_change : ∃ t, step (at0 [] script) = .next t ∧ t.fb ≠ (at0 [] script).fb :=
  ⟨_, rfl, by decide +kernel⟩

theorem witness_run : ∃ t, runSteps 4 (at0 [7] script) = .next t := ⟨_, rfl⟩

theorem witness_clean_host : (at0 [7] script).HostClean := by
  intro inp h
  simp only [at0, script, List.mem_cons, List.not_mem_nil, or_false] at h
  rcases h with rfl | rfl | rfl | rfl <;> decide

theorem witness_invariant_step : ∃ t, (at0 [7] renders).Inv ∧ step (at0 [7] renders) = .next t := by
  refine ⟨_, ⟨?_, by simp [at0], by simp [at0]⟩, rfl⟩
  intro inp h
  simp only [at0, renders, List.mem_cons, List.not_mem_nil, or_false] at h
  rcases h with rfl | rfl | rfl <;> decide

theorem witness_idle_insertion : ∃ t, runSteps (script.length + renders.length)
    { at0 [7] [] with host := script ++ renders } = .next t := ⟨_, rfl⟩

theorem witness_presentation_layer : renders.all (·.issuedBy .presentation) = true ∧
    (StepIn.ofInstr .new 0#2048).issuedBy .presentation = false ∧
    ∃ t, runSteps 3 (at0 [7] renders) = .next t := ⟨by decide, by decide, _, rfl⟩

theorem witness_reset_before_use :
    resetBeforeUse (StepIn.ofInstr (.map 1 1) 0#2048 :: StepIn.ofInstr .new 0#2048 :: script) = true ∧
      resetBeforeUse script = false ∧ resetBeforeUse [readWrite .gets .new 0#2048] = false ∧
      ∃ t, runSteps 6 (at0 [7] (StepIn.ofInstr (.map 1 1) 0#2048 :: StepIn.ofInstr .new 0#2048 :: script)) =
        .next t := ⟨by decide, by decide, by decide, _, rfl⟩

theorem witness_drawhex : ∃ rows, lookup glyphRom 0x41 = .found rows ∧
    (at0 [] ((drawHex glyphRom 0x41 62 30).map (StepIn.ofInstr · 0#2048))).host =
      (drawHex glyphRom 0x41 62 30).map (StepIn.ofInstr · 0#2048) := ⟨_, rfl, rfl⟩

theorem witness_drawhex_unknown : lookup glyphRom 0x47 = .notFound ∧ 0x47 < 256 ∧
    (drawHex glyphRom 0x47 0 0).map (StepIn.ofInstr · 0#2048) = [StepIn.ofInstr (.glyph 0x47) 0#2048] :=
  ⟨by decide, by decide, rfl⟩

theorem number_0 : SpellsNumber ['0'] 0 := .inl ⟨[0], by simp, by repeat constructor, rfl⟩

theorem number_255 : SpellsNumber ['0', 'x', 'F', 'f'] 255 :=
  .inr ⟨_, rfl, [15, 15], by simp, .cons ⟨by decide, .inr (by decide)⟩ (.cons ⟨by decide, .inl rfl⟩ .nil), rfl⟩

theorem number_2047 : SpellsNumber ['2', '0', '4', '7'] 2047 :=
  .inl ⟨[2, 0, 4, 7], by simp, by repeat constructor, rfl⟩

/-- A line with a command on every port, the operands at the ends of their ranges. -/
def lineOnAllPorts : List (Text × Instr × List Nat) :=
  [(written ['M', 'A', 'P'] 2 [['0'], ['2', '0', '4', '7']], .map 0 2047, []),
   (written ['P', 'U', 'T', 'S'] 1 [writtenSet [['0'], ['2', '0', '4', '7']]], .puts, [0, 2047]),
   (['R', 'E', 'N', 'D'], .rend, []),
   (written ['G', 'L', 'Y', 'P', 'H'] 0 [['\'', ';', '\'']], .glyph 0x3B, [])]

theorem witness_command_line : (∀ c ∈ lineOnAllPorts, SpellsCommand c.1 c.2) ∧
    (lineOnAllPorts.map fun c => c.2.1.port).Nodup ∧ IsComment [' ', ';', ' ', '|', '|', '\''] := by
  refine ⟨?_, by decide, .inr ⟨_, rfl⟩⟩
  simp only [lineOnAllPorts, List.forall_mem_cons]
  exact ⟨⟨rfl, 2, _, _, number_0, number_2047, rfl⟩,
    ⟨by decide, 1, _, .cons number_0 (.cons number_2047 .nil), rfl⟩, ⟨rfl, rfl⟩,
    ⟨rfl, by decide, 0, _, .inl ⟨';', rfl, rfl⟩, rfl⟩, by simp⟩

theorem witness_commands_of_one : SpellsCommand ['N', 'E', 'W'] (.new, []) ∧
    SpellsCommand ['G', 'E', 'T', 'S'] (.gets, []) ∧
    SpellsCommand (written ['S', 'E', 'T', 'P'] 0 [['2', '0', '4', '7'], ['0'], ['0']]) (.setp 2047 0 false, []) ∧
    SpellsCommand (written ['G', 'E', 'T', 'P'] 0 [['0', 'x', 'F', 'f'], ['0']]) (.getp 255 0, []) ∧
    SpellsCommand (written ['P', 'U', 'T', 'S'] 0 [writtenSet []]) (.puts, []) ∧
    SpellsCommand (written ['G', 'L', 'Y', 'P', 'H'] 0 [['0', 'x', 'F', 'f']]) (.glyph 255, []) ∧ IsComment [] :=
  ⟨⟨rfl, rfl⟩, ⟨rfl, rfl⟩, ⟨rfl, 0, _, _, _, number_2047, number_0, number_0, rfl⟩,
    ⟨rfl, 0, _, _, number_255, number_0, rfl⟩, ⟨by simp, 0, _, .nil, rfl⟩,
    ⟨rfl, by decide, 0, _, .inr number_255, rfl⟩, .inl rfl⟩

end Sys2Proof.Tests
end

section
/-! ### Proofs: the cells after reset (spec/10_state.md R31) -/

namespace Sys2Proof.Machine

/-- Settles O1: the grid of `State.reset` is zero, and a zero grid reads off at every index. -/
theorem resetLeavesEveryCellOff : Obligations.ResetLeavesEveryCellOff := by
  intro i _
  rw [reset_fb]
  exact memReadCell_zero i

end Sys2Proof.Machine
end

section
/-! ### Proofs: the bulk vector (spec/20_memory.md R43) -/

namespace Sys2Proof.Machine

/-- Settles O23: `GETS` hands out the cells and `PUTS` takes `w_data` as they are, and byte `j` starts at bit `8*j`. -/
theorem bulkVectorIsTheCellSequence : Obligations.BulkVectorIsTheCellSequence := by
  refine ⟨?gets, ?puts, ?bytes⟩
  case gets =>
    intro s t g h hg i _
    cases (exec_gets s).symm.trans h
    cases hg
    rfl
  case puts =>
    intro s t h i _
    cases (exec_puts s).symm.trans h
    rfl
  case bytes =>
    intro g j k _ hk
    exact gridByte_getLsbD g j k hk

end Sys2Proof.Machine
end

section
/-! ### Proofs: the responses of one step (spec/20_memory.md R48) -/

namespace Sys2Proof.Machine

theorem runPort_of_absent {inp : StepIn} (p : Port) (h : inp.cmdOn p = none) (s : State) :
    runPort inp p s = .next s := by
  simp [runPort, h]

theorem runPort_of_accepted {inp : StepIn} {p : Port} {i : Instr} (h : acceptedOn p (inp.cmdOn p) = some i)
    (s : State) : runPort inp p s = exec i s := by
  simp [runPort, h]

/-- A clean step without reset is the transition (R48, R67). -/
theorem step_of_clean {s : State} (hc : s.nextIn.clean = true) (hr : s.nextIn.rst = false) :
    step s = transition s.nextIn s.beginStep := by
  rcases step_cases s with ⟨h, -⟩ | ⟨-, p, e, h, -⟩ | ⟨-, -, h⟩
  · simp [hr] at h
  · rcases clean_iff.1 hc with h' | h'
    · simp [hr] at h'
    · simp [h' p] at h
  · exact h

/-- Settles O38: the step is the transition, and each port of a transition runs on the state before it. -/
theorem responsesAreThoseOfTheStateBefore : Obligations.ResponsesAreThoseOfTheStateBefore := by
  intro s hc hr
  obtain ⟨t, r, m, g, w, ht, hrunR, hrunM, hrunG, hrunW, fb, outR, outM, outG, outW, -, -⟩ :=
    transition_spec s.nextIn s.beginStep
  refine ⟨t, (step_of_clean hc hr).trans ht, ?commands, ?noM, ?noR, ?noG, ?noW⟩
  case commands =>
    intro p i u ha hu
    have hrun : runPort s.nextIn p s.beginStep = .next u := (runPort_of_accepted ha _).trans hu
    refine ⟨?_, ?_, ?_, ?_⟩ <;> rintro rfl
    · cases hrunM.symm.trans hrun; exact outM
    · cases hrunR.symm.trans hrun; exact outR
    · cases hrunG.symm.trans hrun; exact outG
    · cases hrunW.symm.trans hrun; exact ⟨outW, fb⟩
  case noM => intro h; cases hrunM.symm.trans (runPort_of_absent .m h _); exact outM
  case noR => intro h; cases hrunR.symm.trans (runPort_of_absent .r h _); exact outR
  case noG => intro h; cases hrunG.symm.trans (runPort_of_absent .g h _); exact outG
  case noW => intro h; cases hrunW.symm.trans (runPort_of_absent .w h _); exact ⟨outW, fb⟩

end Sys2Proof.Machine
end

section
/-! ### Proofs: the history of one cell over a run (spec/20_memory.md R49) -/

namespace Sys2Proof.Machine

theorem cellAfter_of_rst {inp : StepIn} (h : inp.rst = true) (j : Nat) (b : Bool) : cellAfter j b inp = false := by
  simp [cellAfter, h]

theorem cellAfter_of_no_write {inp : StepIn} (hr : inp.rst = false) (ha : acceptedOn .w inp.wCmd = none) (j : Nat)
    (b : Bool) : cellAfter j b inp = b := by
  simp [cellAfter, hr, ha]

@[simp] theorem cellAfter_idle (j : Nat) (b : Bool) : cellAfter j b StepIn.idle = b :=
  cellAfter_of_no_write rfl rfl j b

/-- The write port's operation does to each cell what the cell's own history says. -/
theorem memReadCell_exec {inp : StepIn} {i : Instr} {s t : State} (hr : inp.rst = false)
    (ha : acceptedOn .w inp.wCmd = some i) (hd : s.wData = inp.wData) (h : exec i s = .next t) {j : Nat}
    (hj : j < 2048) : memReadCell t.fb j = cellAfter j (memReadCell s.fb j) inp := by
  cases i with
  | new => cases h; simp [cellAfter, hr, ha]
  | setp x y v => cases h; simp [cellAfter, hr, ha, memReadCell_memWriteCell _ _ _ _ hj, eq_comm]
  | puts => cases h; simp [cellAfter, hr, ha, hd]
  | _ => cases acceptedOn_port ha

/-- One step does to each cell what the cell's own history says (R49). -/
theorem memReadCell_step {s t : State} (h : step s = .next t) {j : Nat} (hj : j < 2048) :
    memReadCell t.fb j = cellAfter j (memReadCell s.fb j) s.nextIn := by
  rcases step_cases s with ⟨hr, e⟩ | ⟨-, p, r, -, e⟩ | ⟨hr, -, e⟩
  · cases h.symm.trans e
    simp [cellAfter_of_rst hr]
  · cases h.symm.trans e
  · obtain ⟨t', -, -, -, w, ht, -, -, -, hw, fb, -⟩ := transition_spec s.nextIn s.beginStep
    cases h.symm.trans (e.trans ht)
    rw [fb]
    rcases runPort_cases s.nextIn .w s.beginStep with ⟨ha, hrun⟩ | ⟨i, ha, -, hrun⟩
    · cases hw.symm.trans hrun
      exact (cellAfter_of_no_write hr ha j _).symm
    · exact memReadCell_exec hr ha (beginStep_wData s) (hrun.symm.trans hw) hj

/-- A cell's history over `k + 1` steps is the coming step, then the history over the rest; past the end of what the
host presents the coming step is idle. -/
theorem foldl_cellAfter_take_succ (s : State) (k j : Nat) (b : Bool) :
    (s.host.take (k + 1)).foldl (cellAfter j) b =
      (s.host.tail.take k).foldl (cellAfter j) (cellAfter j b s.nextIn) := by
  cases h : s.host with
  | nil => simp [nextIn_nil h]
  | cons inp rest => simp [nextIn_cons h]

/-- Settles O44, by induction on the number of steps: each step acts on a cell as the cell's history does. -/
theorem everyCellHoldsItsLatestWrite : Obligations.EveryCellHoldsItsLatestWrite := by
  intro k s t h j hj
  induction k generalizing s with
  | zero => cases h; rfl
  | succ k ih =>
    obtain ⟨u, hu, hrest⟩ := runSteps_succ_next h
    rw [ih u hrest, step_host hu, memReadCell_step hu hj, ← foldl_cellAfter_take_succ]

end Sys2Proof.Machine
end

section
/-! ### Proofs: the opcode map (spec/30_encoding.md R65) -/

namespace Sys2Proof

/-! The fields of a command word as numbers (R60 to R63). -/

theorem opOf_toNat (w : Word) : (opOf w).toNat = w.toNat / 2 ^ 28 % 16 := by
  simp [opOf, Nat.shiftRight_eq_div_pow]

theorem opOf_eq_iff {w : Word} {op : BitVec 4} : opOf w = op ↔ w.toNat / 2 ^ 28 = op.toNat := by
  rw [← BitVec.toNat_inj, opOf_toNat]; omega

theorem opOf_and (w v : Word) : opOf (w &&& v) = opOf w &&& opOf v := BitVec.extractLsb'_and

theorem rsvN_eq_zero_iff {w : Word} : rsvN w = 0#28 ↔ w.toNat % 2 ^ 28 = 0 := by
  simp [← BitVec.toNat_inj, rsvN]

theorem rsvP_eq_zero_iff {w : Word} : rsvP w = 0#3 ↔ w.toNat / 2 ^ 25 % 8 = 0 := by
  simp [← BitVec.toNat_inj, rsvP, Nat.shiftRight_eq_div_pow]

theorem vOf_eq_false_iff {w : Word} : vOf w = false ↔ w.toNat / 2 ^ 24 % 2 = 0 := by
  rw [vOf, ← BitVec.testBit_toNat, Nat.testBit_eq_decide_div_mod_eq, decide_eq_false_iff_not,
    Nat.mod_two_not_eq_one]

theorem rsvG_eq_zero_iff {w : Word} : rsvG w = 0#20 ↔ w.toNat / 2 ^ 8 % 2 ^ 20 = 0 := by
  simp [← BitVec.toNat_inj, rsvG, Nat.shiftRight_eq_div_pow]

/-! A mask of the opcode map keeps the bits of a word from some position up, and a `match` is `op` with zeros below. -/

/-- Keeping the bits from `k` up rounds the word's number down to a multiple of `2 ^ k`. -/
theorem and_upperMask_eq_encodeN (k : Nat) (w : Word) (op : BitVec 4) :
    w &&& BitVec.allOnes 32 <<< k = encodeN op ↔ w.toNat / 2 ^ k * 2 ^ k = op.toNat * 2 ^ 28 := by
  have hround : w.toNat / 2 ^ k * 2 ^ k < 2 ^ 32 := (Nat.div_mul_le_self ..).trans_lt w.isLt
  rw [← BitVec.shiftLeft_ushiftRight, ← BitVec.toNat_inj]
  simp only [encodeN, BitVec.toNat_shiftLeft, BitVec.toNat_ushiftRight, BitVec.toNat_setWidth, Nat.shiftLeft_eq,
    Nat.shiftRight_eq_div_pow, Nat.mod_eq_of_lt hround]
  omega

/-- The masked match of a row of format N (R63). -/
theorem matchesN_iff {w : Word} {op : BitVec 4} :
    w &&& 0xFFFFFFFF#32 = encodeN op ↔ opOf w = op ∧ rsvN w = 0#28 := by
  rw [opOf_eq_iff, rsvN_eq_zero_iff]
  exact (and_upperMask_eq_encodeN 0 w op).trans (by omega)

/-- The masked match of a row of format P that uses `v` (R61). -/
theorem matchesP_iff {w : Word} {op : BitVec 4} :
    w &&& 0xFE000000#32 = encodeN op ↔ opOf w = op ∧ rsvP w = 0#3 := by
  rw [opOf_eq_iff, rsvP_eq_zero_iff]
  exact (and_upperMask_eq_encodeN 25 w op).trans (by omega)

/-- The masked match of a row of format P in which `v` must be 0 (R61). -/
theorem matchesPNoValue_iff {w : Word} {op : BitVec 4} :
    w &&& 0xFF000000#32 = encodeN op ↔ opOf w = op ∧ rsvP w = 0#3 ∧ vOf w = false := by
  rw [opOf_eq_iff, rsvP_eq_zero_iff, vOf_eq_false_iff]
  exact (and_upperMask_eq_encodeN 24 w op).trans (by omega)

/-- The masked match of a row of format G (R62). -/
theorem matchesG_iff {w : Word} {op : BitVec 4} :
    w &&& 0xFFFFFF00#32 = encodeN op ↔ opOf w = op ∧ rsvG w = 0#20 := by
  rw [opOf_eq_iff, rsvG_eq_zero_iff]
  exact (and_upperMask_eq_encodeN 8 w op).trans (by omega)

/-! A word with the `op` of a row decodes, in the row's format, exactly when the row matches it. -/

theorem decodeN_ok {w : Word} {op : BitVec 4} {i j : Instr} (hop : opOf w = op) :
    decodeN w i = .ok j ↔ w &&& 0xFFFFFFFF#32 = encodeN op ∧ i = j := by
  by_cases h : rsvN w = 0#28 <;> simp [decodeN, matchesN_iff, hop, h]

theorem decodeP_ok {w : Word} {op : BitVec 4} {mk : Nat → Nat → Bool → Instr} {j : Instr} (hop : opOf w = op) :
    decodeP w mk = .ok j ↔ w &&& 0xFE000000#32 = encodeN op ∧ mk (xOf w) (yOf w) (vOf w) = j := by
  by_cases h : rsvP w = 0#3 <;> simp [decodeP, matchesP_iff, hop, h]

theorem decodePNoValue_ok {w : Word} {op : BitVec 4} {mk : Nat → Nat → Instr} {j : Instr} (hop : opOf w = op) :
    decodePNoValue w mk = .ok j ↔ w &&& 0xFF000000#32 = encodeN op ∧ mk (xOf w) (yOf w) = j := by
  by_cases h : rsvP w = 0#3 <;> cases hv : vOf w <;> simp [decodePNoValue, matchesPNoValue_iff, hop, h, hv]

theorem decodeG_ok {w : Word} {op : BitVec 4} {j : Instr} (hop : opOf w = op) :
    decodeG w = .ok j ↔ w &&& 0xFFFFFF00#32 = encodeN op ∧ .glyph (symOf w) = j := by
  by_cases h : rsvG w = 0#20 <;> simp [decodeG, matchesG_iff, hop, h]

theorem decode_of_reserved_op {w : Word} (h : (opOf w).toNat = 0 ∨ 9 ≤ (opOf w).toNat) :
    decode w = .error .opcode := by
  unfold decode
  split
  case h_9 => rfl
  all_goals omega

/-! The decoder reads a row exactly where the row matches. -/

/-- The operation of `i`'s row with the operands that stand in the fields of `w` (R61, R62). -/
def Instr.withFields (w : Word) : Instr → Instr
  | .new => .new
  | .setp _ _ _ => .setp (xOf w) (yOf w) (vOf w)
  | .getp _ _ => .getp (xOf w) (yOf w)
  | .glyph _ => .glyph (symOf w)
  | .gets => .gets
  | .puts => .puts
  | .rend => .rend
  | .map _ _ => .map (xOf w) (yOf w)

@[simp] theorem port_withFields (w : Word) (i : Instr) : (i.withFields w).port = i.port := by cases i <;> rfl

@[simp] theorem mnemonic_withFields (w : Word) (i : Instr) : (i.withFields w).mnemonic = i.mnemonic := by
  cases i <;> rfl

@[simp] theorem opMask_withFields (w : Word) (i : Instr) : (i.withFields w).opMask = i.opMask := by cases i <;> rfl

@[simp] theorem opMatch_withFields (w : Word) (i : Instr) : (i.withFields w).opMatch = i.opMatch := by cases i <;> rfl

@[simp] theorem withFields_withFields (w : Word) (i : Instr) : (i.withFields w).withFields w = i.withFields w := by
  cases i <;> rfl

/-- A mnemonic names one row. -/
theorem withFields_eq_of_mnemonic_eq {i j : Instr} (h : i.mnemonic = j.mnemonic) (w : Word) :
    i.withFields w = j.withFields w := by
  revert h
  cases i <;> cases j <;> simp [Instr.mnemonic, Instr.withFields]

/-- The `op` of an operation's row (R65). -/
def Instr.opcode : Instr → BitVec 4
  | .new => 0x1#4
  | .setp _ _ _ => 0x2#4
  | .getp _ _ => 0x3#4
  | .glyph _ => 0x4#4
  | .gets => 0x5#4
  | .puts => 0x6#4
  | .rend => 0x7#4
  | .map _ _ => 0x8#4

theorem opMatch_eq (j : Instr) : j.opMatch = encodeN j.opcode := by
  cases j <;> simp [Instr.opMatch, Instr.opcode, encodeN]

theorem opOf_opMask (j : Instr) : opOf j.opMask = BitVec.allOnes 4 := by
  cases j <;> simp [opOf, Instr.opMask]

theorem opOf_of_matches {w : Word} {j : Instr} (h : w &&& j.opMask = j.opMatch) : opOf w = j.opcode := by
  have hop : opOf (w &&& j.opMask) = opOf j.opMatch := congrArg opOf h
  rwa [opOf_and, opOf_opMask, BitVec.and_allOnes, opMatch_eq, opOf_encodeN] at hop

/-- One operation of each row of the opcode map. -/
def opcodeRows : List Instr :=
  [.new, .setp 0 0 false, .getp 0 0, .glyph 0, .gets, .puts, .rend, .map 0 0]

theorem reserved_or_opcode : ∀ op : BitVec 4,
    (op.toNat = 0 ∨ 9 ≤ op.toNat) ∨ ∃ j ∈ opcodeRows, op = j.opcode := by decide

/-- A word with the `op` of a row decodes exactly when the row matches it, and then to the row's operation. -/
theorem decode_ok_of_op {w : Word} {i j : Instr} (hop : opOf w = j.opcode) :
    decode w = .ok i ↔ w &&& j.opMask = j.opMatch ∧ j.withFields w = i := by
  rw [decode, hop, opMatch_eq]
  cases j with
  | new => exact decodeN_ok hop
  | setp _ _ _ => exact decodeP_ok hop
  | getp _ _ => exact decodePNoValue_ok hop
  | glyph _ => exact decodeG_ok hop
  | gets => exact decodeN_ok hop
  | puts => exact decodeN_ok hop
  | rend => exact decodeN_ok hop
  | map _ _ => exact decodePNoValue_ok hop

/-- A word that matches a row decodes to that row's operation, with the word's fields as operands. -/
theorem decode_of_matches {w : Word} {j : Instr} (h : w &&& j.opMask = j.opMatch) :
    decode w = .ok (j.withFields w) :=
  (decode_ok_of_op (opOf_of_matches h)).2 ⟨h, rfl⟩

/-- A word that decodes matches the row of its operation, whose operands are the word's fields. -/
theorem matches_of_decode {w : Word} {i : Instr} (h : decode w = .ok i) :
    w &&& i.opMask = i.opMatch ∧ i.withFields w = i := by
  rcases reserved_or_opcode (opOf w) with hres | ⟨j, -, hop⟩
  · cases h.symm.trans (decode_of_reserved_op hres)
  · obtain ⟨hm, rfl⟩ := (decode_ok_of_op hop).1 h
    simpa using hm

/-- A row matches a word exactly when the row's port accepts the word as the row's operation (R65, R66). -/
theorem matches_iff_accept (w : Word) (j : Instr) :
    w &&& j.opMask = j.opMatch ↔ accept j.port w = .ok (j.withFields w) := by
  rw [accept_ok]
  constructor
  · intro h
    exact ⟨decode_of_matches h, port_withFields w j⟩
  · rintro ⟨h, -⟩
    simpa using (matches_of_decode h).1

/-- A row matches a word exactly when the word decodes to an operation with the row's mnemonic (R65). -/
theorem matches_iff_mnemonic (w : Word) (j : Instr) :
    w &&& j.opMask = j.opMatch ↔ ∃ i, decode w = .ok i ∧ i.mnemonic = j.mnemonic := by
  constructor
  · intro h
    exact ⟨_, decode_of_matches h, mnemonic_withFields w j⟩
  · rintro ⟨i, hi, hm⟩
    obtain ⟨-, hf⟩ := matches_of_decode hi
    rw [← hf, withFields_eq_of_mnemonic_eq hm] at hi
    simpa using (matches_of_decode hi).1

/-- Settles O6: the rows are those of `matches_iff_accept`, with the table's numbers written out. -/
theorem decodeAgreesWithMatchAndMask : Obligations.DecodeAgreesWithMatchAndMask := by
  refine ⟨matches_iff_mnemonic, fun w => ⟨matches_iff_accept w .new, matches_iff_accept w (.setp 0 0 false),
    matches_iff_accept w (.getp 0 0), matches_iff_accept w (.glyph 0), matches_iff_accept w .gets,
    matches_iff_accept w .puts, matches_iff_accept w .rend, matches_iff_accept w (.map 0 0),
    fun h => ⟨_, decode_of_reserved_op h⟩⟩, _, decode_of_reserved_op (.inl rfl)⟩

end Sys2Proof
end

section
/-! ### Proofs: the status of `SETP` (spec/30_encoding.md R69) -/

namespace Sys2Proof.Machine

theorem runPort_of_none_accepted {inp : StepIn} {p : Port} (h : acceptedOn p (inp.cmdOn p) = none) (s : State) :
    runPort inp p s = .next s := by
  simp [runPort, h]

/-- In a step without reset port W answers what its command gives on the state in which the step begins (R48). -/
theorem step_out_w {s t : State} (h : step s = .next t) (hr : s.nextIn.rst = false) :
    ∃ w, runPort s.nextIn .w s.beginStep = .next w ∧ t.out.w = w.out.w := by
  rcases step_cases s with ⟨hr', -⟩ | ⟨-, p, e, -, hs⟩ | ⟨-, -, hs⟩
  · simp [hr] at hr'
  · cases h.symm.trans hs
  · obtain ⟨t', -, -, -, w, ht, -, -, -, hw, -, -, -, -, outW, -, -⟩ := transition_spec s.nextIn s.beginStep
    cases h.symm.trans (hs.trans ht)
    exact ⟨w, hw, outW⟩

/-- An operation of port W other than `SETP` answers an acknowledgement (R68). -/
theorem exec_out_w_ack {i : Instr} {s t : State} (hp : i.port = .w) (hi : ∀ x y v, i ≠ .setp x y v)
    (h : exec i s = .next t) : t.out.w = some .ack := by
  cases i with
  | new => cases h; rfl
  | puts => cases h; rfl
  | setp x y v => exact absurd rfl (hi x y v)
  | _ => cases hp

/-- Settles O32: port W's response is that of its own command, and of the three operations `SETP` alone answers a
status. -/
theorem onlySetpCarriesTheStatus : Obligations.OnlySetpCarriesTheStatus := by
  intro s t h hr
  obtain ⟨w, hw, outW⟩ := step_out_w h hr
  rw [outW]
  refine ⟨?setp, ?other, ?absent⟩
  case setp =>
    intro x y v ha
    cases hw.symm.trans ((runPort_of_accepted ha _).trans (exec_setp _ x y v))
    exact ⟨rfl, rfl⟩
  case other =>
    intro i ha hi
    exact exec_out_w_ack (acceptedOn_port ha) hi ((runPort_of_accepted ha _).symm.trans hw)
  case absent =>
    intro ha
    cases hw.symm.trans (runPort_of_none_accepted ha _)
    rfl

end Sys2Proof.Machine
end

section
/-! ### Proofs: the address mapper and `MAP` (spec/40_address_mapper.md R80 to R87) -/

namespace Sys2Proof.Machine

/-! On the cells the mapper has the inverse `i -> (i mod 64, i div 64)` (R84). -/

theorem columnOf_lt (i : Nat) : columnOf i < 64 := Nat.mod_lt i (by decide)

theorem rowOf_lt {i : Nat} (hi : i < 2048) : rowOf i < 32 := Nat.div_lt_of_lt_mul hi

theorem index_columnOf_rowOf {i : Nat} (hi : i < 2048) : index (columnOf i) (rowOf i) = i := by
  have hsplit : columnOf i + 64 * rowOf i = i := Nat.mod_add_div i 64
  rw [index_eq, Nat.mod_eq_of_lt (columnOf_lt i), Nat.mod_eq_of_lt (rowOf_lt hi), Nat.mul_comm, hsplit]

/-- The column of a mapped cell is the reduced `x`. -/
theorem columnOf_index (x y : Nat) : columnOf (index x y) = x % 64 := by
  simp only [columnOf, index_eq, Config.columns]; omega

/-- The row of a mapped cell is the reduced `y`. -/
theorem rowOf_index (x y : Nat) : rowOf (index x y) = y % 32 := by
  simp only [rowOf, index_eq, Config.columns]; omega

/-- The mapper sees no more of a coordinate than its remainders (R83). -/
theorem index_mod (x y : Nat) : index (x % 64) (y % 32) = index x y := by
  rw [index_eq, index_eq, Nat.mod_mod, Nat.mod_mod]

/-- Settles O12: cell `i` is mapped from its column and row, and a mapped cell's column and row give the coordinate
back. -/
theorem indexCoversEachCellOnce : Obligations.IndexCoversEachCellOnce := by
  intro i hi
  refine ⟨columnOf i, rowOf i, columnOf_lt i, rowOf_lt hi, index_columnOf_rowOf hi, ?unique⟩
  case unique =>
    rintro x y hx hy rfl
    rw [columnOf_index, rowOf_index, Nat.mod_eq_of_lt hx, Nat.mod_eq_of_lt hy]
    exact ⟨rfl, rfl⟩

/-- Settles O9: `MAP` answers the 11 bits of the index on `m_idx`, which lose nothing, and only that response is
updated. -/
theorem mapAnswersTheIndex : Obligations.MapAnswersTheIndex := by
  intro x y s
  have hidx : (indexBits x y).toNat = x % 64 + y % 32 * 64 := (indexBits_toNat x y).trans (index_eq x y)
  refine ⟨s.respondM (indexBits x y), indexBits x y, exec_map s x y, ?response, hidx, ?frame⟩
  case response => exact respondM_out_m s _
  case frame => simp

/-- Settles O10: a mapped index is below 2048, and both extremes are reached. -/
theorem indexIsAlwaysAValidCell : Obligations.IndexIsAlwaysAValidCell :=
  ⟨fun x y => Nat.le_of_lt_succ (index_lt x y), by decide, by decide⟩

/-- Settles O11: `index_mod`, and its instances at (64, 0) and (129, 66). -/
theorem indexIsIdempotentUnderWrap : Obligations.IndexIsIdempotentUnderWrap :=
  ⟨fun x y => (index_mod x y).symm, (index_mod 64 0).symm, (index_mod 129 66).symm⟩

end Sys2Proof.Machine
end

section
/-! ### Proofs: single cells (spec/41_pixel_access.md R100 to R104) -/

namespace Sys2Proof.Machine

/-! What the words of `SETP` and `GETP` carry: a coordinate's low 12 bits (R64), which name the same cell. -/

theorem acceptedOn_encode_setp (x y : Nat) (v : Bool) :
    acceptedOn .w (some (encode (.setp x y v))) = some (.setp (x % 4096) (y % 4096) v) := by
  simp [acceptedOn, accept, decode, decodeP, encode, Instr.port, Except.toOption]

theorem acceptedOn_encode_getp (x y : Nat) :
    acceptedOn .r (some (encode (.getp x y))) = some (.getp (x % 4096) (y % 4096)) := by
  simp [acceptedOn, accept, decode, decodePNoValue, encode, Instr.port, Except.toOption]

theorem index_lowBits (x y : Nat) : index (x % 4096) (y % 4096) = index x y := by
  rw [← index_mod, Nat.mod_mod_of_dvd x (by decide), Nat.mod_mod_of_dvd y (by decide), index_mod]

/-! Runs of clean steps complete. -/

/-- A step without a reserved word answers a next state (R160, R167). -/
theorem step_completes_of_clean {s : State} (hc : s.nextIn.clean = true) : ∃ t, step s = .next t := by
  cases hr : s.nextIn.rst with
  | true => exact ⟨s.beginStep.clearCells, by simp [step, runStep, hr]⟩
  | false =>
    obtain ⟨t, ht, -⟩ := responsesAreThoseOfTheStateBefore s hc hr
    exact ⟨t, ht⟩

/-- A run over inputs without a reserved word completes and takes exactly these inputs. -/
theorem runSteps_completes_of_clean {inps rest : List StepIn} {s : State} (hhost : s.host = inps ++ rest)
    (hc : ∀ inp ∈ inps, inp.clean = true) : ∃ t, runSteps inps.length s = .next t ∧ t.host = rest := by
  induction inps generalizing s with
  | nil => exact ⟨s, rfl, hhost⟩
  | cons inp inps ih =>
    obtain ⟨hinp, hinps⟩ := List.forall_mem_cons.1 hc
    obtain ⟨u, hu⟩ := step_completes_of_clean (s := s) (by rwa [nextIn_cons hhost])
    obtain ⟨t, ht, hrest⟩ := ih (s := u) (by rw [step_host hu, hhost]; rfl) hinps
    exact ⟨t, (runSteps_succ hu).trans ht, hrest⟩

/-! The history of one cell (R49) from its `SETP` to its `GETP`. -/

/-- `SETP` gives its value to the mapped cell. -/
theorem cellAfter_of_setp {inp : StepIn} {x y : Nat} {v : Bool} (hr : inp.rst = false)
    (hw : inp.wCmd = some (encode (.setp x y v))) (b : Bool) : cellAfter (index x y) b inp = v := by
  simp [cellAfter, hr, hw, acceptedOn_encode_setp, index_lowBits]

/-- Steps that write nothing leave every cell as it is. -/
theorem foldl_cellAfter_of_writesNothing {inps : List StepIn} (h : ∀ inp ∈ inps, inp.writesNothing = true)
    (j : Nat) (b : Bool) : inps.foldl (cellAfter j) b = b := by
  induction inps with
  | nil => rfl
  | cons inp inps ih =>
    obtain ⟨hinp, hinps⟩ := List.forall_mem_cons.1 h
    obtain ⟨hr, hw⟩ : inp.rst = false ∧ inp.wCmd = none := by simpa [StepIn.writesNothing] using hinp
    rw [List.foldl_cons, cellAfter_of_no_write hr (by rw [hw, acceptedOn_none]), ih hinps]

/-- A clean step with `GETP` answers the mapped cell as the step finds it (R48, R102). -/
theorem step_of_getp {s : State} {x y : Nat} (hc : s.nextIn.clean = true) (hr : s.nextIn.rst = false)
    (hcmd : s.nextIn.rCmd = some (encode (.getp x y))) :
    ∃ t, step s = .next t ∧ t.out.r = some (.bit (memReadCell s.fb (index x y))) := by
  obtain ⟨t, ht, hresp, -⟩ := responsesAreThoseOfTheStateBefore s hc hr
  have hacc : acceptedOn .r (s.nextIn.cmdOn .r) = some (.getp (x % 4096) (y % 4096)) := by
    rw [cmdOn_r, hcmd, acceptedOn_encode_getp]
  obtain ⟨-, outR, -, -⟩ := hresp .r _ _ hacc (exec_getp _ _ _)
  refine ⟨t, ht, (outR rfl).trans ?_⟩
  rw [respondR_out_r, beginStep_fb, index_lowBits]

/-- Settles O19: up to the read, the mapped cell's history is the `SETP` and then steps that leave the cell alone. -/
theorem writeThenReadReturnsTheValue : Obligations.WriteThenReadReturnsTheValue := by
  intro s x y v first last mids rest hhost hcF hrF hwF hmids hcL hrL hrcL
  have hclean : ∀ inp ∈ first :: mids, inp.clean = true :=
    List.forall_mem_cons.2 ⟨hcF, fun inp hm => (hmids inp hm).1⟩
  obtain ⟨u, hu, huhost⟩ := runSteps_completes_of_clean (inps := first :: mids) hhost hclean
  have hcell : memReadCell u.fb (index x y) = v := by
    have htake : s.host.take (first :: mids).length = first :: mids := by rw [hhost]; exact List.take_left
    rw [everyCellHoldsItsLatestWrite _ s u hu _ (index_lt x y), htake, List.foldl_cons, cellAfter_of_setp hrF hwF,
      foldl_cellAfter_of_writesNothing fun inp hm => (hmids inp hm).2]
  have hnext : u.nextIn = last := nextIn_cons huhost
  obtain ⟨t, ht, hout⟩ := step_of_getp (s := u) (x := x) (y := y) (by rwa [hnext]) (by rwa [hnext]) (by rwa [hnext])
  refine ⟨t, ?run, by rw [hout, hcell]⟩
  case run => exact (runSteps_add 1 hu).trans (runSteps_succ ht)

/-- Settles O17: `SETP` is one cell write, and a read after a write separates the mapped cell from the others. -/
theorem setpWritesExactlyTheMappedCell : Obligations.SetpWritesExactlyTheMappedCell := by
  intro x y v s
  refine ⟨_, exec_setp s x y v, ?mapped, ?others, ?frame⟩
  case mapped => simp [memReadCell_memWriteCell _ _ _ _ (index_lt x y)]
  case others =>
    intro j hj hne
    simp [memReadCell_memWriteCell _ _ _ _ hj, hne]
  case frame => simp [statusOk]

/-- Settles O16: `NEW` is the write of the zero grid and an acknowledgement. -/
theorem newTurnsEveryCellOff : Obligations.NewTurnsEveryCellOff := by
  intro s
  refine ⟨_, exec_new s, ?off, ?frame⟩
  case off =>
    intro i _
    exact memReadCell_zero i
  case frame => simp

/-- Settles O18: `GETP` updates the response of port R alone, and `index_eq` writes the cell number out. -/
theorem getpAnswersTheMappedCell : Obligations.GetpAnswersTheMappedCell := by
  intro x y s
  refine ⟨_, exec_getp s x y, ?response, ?frame⟩
  case response => rw [respondR_out_r, index_eq]
  case frame => simp

end Sys2Proof.Machine
end

section
/-! ### Proofs: bulk state and render (spec/42_bulk_state_and_render.md R120 to R125) -/

namespace Sys2Proof.Machine

/-! Runs without a write keep every cell. -/

theorem rst_of_writesNothing {inp : StepIn} (h : inp.writesNothing = true) : inp.rst = false := by
  simp only [StepIn.writesNothing, Bool.and_eq_true, Bool.not_eq_true'] at h
  exact h.1

/-- A run over inputs that write nothing leaves the cells as they are: each keeps its history's first value (R49). -/
theorem runSteps_fb_of_writesNothing {inps rest : List StepIn} {s t : State} (hhost : s.host = inps ++ rest)
    (hw : ∀ inp ∈ inps, inp.writesNothing = true) (h : runSteps inps.length s = .next t) : t.fb = s.fb := by
  have htake : s.host.take inps.length = inps := by rw [hhost]; exact List.take_left
  apply grid_ext
  intro j hj
  rw [everyCellHoldsItsLatestWrite _ s t h j hj, htake, foldl_cellAfter_of_writesNothing hw]

/-! `REND` in a step, and its text row by row. -/

theorem acceptedOn_encode_rend : acceptedOn .r (some (encode .rend)) = some .rend := by decide

/-- A clean step with `REND` answers the text of the cells as the step finds them (R48, R122). -/
theorem step_of_rend {s : State} (hc : s.nextIn.clean = true) (hr : s.nextIn.rst = false)
    (hcmd : s.nextIn.rCmd = some (encode .rend)) :
    ∃ t, step s = .next t ∧ t.out.r = some (.text (render s.fb)) := by
  obtain ⟨t, ht, hresp, -⟩ := responsesAreThoseOfTheStateBefore s hc hr
  have hacc : acceptedOn .r (s.nextIn.cmdOn .r) = some .rend := by
    rw [cmdOn_r, hcmd, acceptedOn_encode_rend]
  obtain ⟨-, outR, -, -⟩ := hresp .r _ _ hacc (exec_rend _)
  exact ⟨t, ht, outR rfl⟩

/-- A line of the text with the column, blank and line break of R123 and R124 written out. -/
theorem lineText_eq (on sep : Text) (g : Grid) (r : Nat) :
    lineText on sep g r =
      ((List.range 64).flatMap fun c => (if g.getLsbD (64 * r + c) then on else [' ']) ++ sep) ++ ['\n'] := by
  have hcell (c : Nat) : memReadCell g (cellAt c r) = g.getLsbD (64 * r + c) :=
    congrArg g.getLsbD (Nat.add_comm c (64 * r))
  simp only [lineText, cellText, hcell, Config.columns, Config.blank, Config.lineBreak]

/-- Settles O27: the run from the first render to the second writes nothing, so both render the same cells. -/
theorem renderingTwiceGivesEqualTexts : Obligations.RenderingTwiceGivesEqualTexts := by
  intro s first last mids rest hhost hcF hwF hrcF hmids hcL hrL hrcL
  have hrF : first.rst = false := rst_of_writesNothing hwF
  have hfirst : s.nextIn = first := nextIn_cons hhost
  obtain ⟨t, ht, houtF⟩ := step_of_rend (s := s) (by rwa [hfirst]) (by rwa [hfirst]) (by rwa [hfirst])
  have hclean : ∀ inp ∈ first :: mids, inp.clean = true :=
    List.forall_mem_cons.2 ⟨hcF, fun inp hm => (hmids inp hm).1⟩
  have hquiet : ∀ inp ∈ first :: mids, inp.writesNothing = true :=
    List.forall_mem_cons.2 ⟨hwF, fun inp hm => (hmids inp hm).2⟩
  obtain ⟨v, hv, hvhost⟩ := runSteps_completes_of_clean (inps := first :: mids) hhost hclean
  have hcells : v.fb = s.fb := runSteps_fb_of_writesNothing (inps := first :: mids) hhost hquiet hv
  have hlast : v.nextIn = last := nextIn_cons hvhost
  obtain ⟨u, hu, houtL⟩ := step_of_rend (s := v) (by rwa [hlast]) (by rwa [hlast]) (by rwa [hlast])
  refine ⟨t, u, render s.fb, ht, ?run, houtF, by rw [houtL, hcells]⟩
  case run => exact (runSteps_add 1 hv).trans (runSteps_succ hu)

/-- Settles O21: `GETS` updates the response of port R alone, with the cells as they are. -/
theorem getsAnswersEveryCell : Obligations.GetsAnswersEveryCell := by
  intro s
  refine ⟨_, s.fb, exec_gets s, respondR_out_r _ _, ?bits, ?frame⟩
  case bits => intro i _; rfl
  case frame => simp

/-- Settles O22: `PUTS` is the write of the grid `w_data` and an acknowledgement. -/
theorem putsReplacesEveryCell : Obligations.PutsReplacesEveryCell := by
  intro s
  refine ⟨_, exec_puts s, ?cells, ?frame⟩
  case cells => intro i _; rfl
  case frame => simp

/-- Settles O24: `REND` updates the response of port R alone, and `lineText_eq` writes the text's lines out. -/
theorem rendAnswersTheText : Obligations.RendAnswersTheText := by
  intro s
  refine ⟨_, exec_rend s, ?response, ?frame⟩
  case response =>
    rw [respondR_out_r, render, renderWith, Config.rows, funext (lineText_eq onGlyph Config.sep s.fb)]
  case frame => simp

end Sys2Proof.Machine
end

section
/-! ### Proofs: the glyph table and `DRAWHEX` (spec/43_glyph_table.md R143 to R147) -/

namespace Sys2Proof.Machine

/-! `GLYPH` (R143, R144). -/

theorem lookup_of_key {rom : GlyphRom} {sym k : Nat} (h : key sym = some k) :
    lookup rom sym = .found (romEntry rom k) := by
  rw [lookup, h]

theorem lookup_of_no_key {rom : GlyphRom} {sym : Nat} (h : key sym = none) : lookup rom sym = .notFound := by
  rw [lookup, h]

/-- A key's rows stand on port G, row by row those of its entry. -/
theorem respondG_lookup_of_key {sym k : Nat} (h : key sym = some k) (s : State) :
    ∃ rows : Vector Byte 5, (s.respondG (lookup glyphRom sym)).out.g = some (.found rows) ∧
      ∀ r (h : r < 5), rows[r] = glyphRom k r :=
  ⟨romEntry glyphRom k, by rw [respondG_out_g, lookup_of_key h], romEntry_getElem glyphRom k⟩

/-- Settles O29: the digits, the letters `A` to `F` and all other codes are the three cases of `Key`. -/
theorem glyphLooksUpTheTable : Obligations.GlyphLooksUpTheTable := by
  intro sym s
  refine ⟨_, exec_glyph s sym, ?digit, ?letter, ?other, ?frame⟩
  case digit =>
    intro h
    exact respondG_lookup_of_key (if_pos h) s
  case letter =>
    intro h
    have hdigit : ¬(48 ≤ sym ∧ sym ≤ 57) := by omega
    exact respondG_lookup_of_key ((if_neg hdigit).trans (if_pos h)) s
  case other =>
    rintro ⟨hdigit, hletter⟩
    rw [respondG_out_g, lookup_of_no_key ((if_neg hdigit).trans (if_neg hletter))]
  case frame => simp

/-! The steps of `DRAWHEX`: each presents one operation, whose word is not reserved on its port. -/

theorem acceptedOn_encode_glyph (sym : Nat) :
    acceptedOn .g (some (encode (.glyph sym))) = some (.glyph (sym % 256)) := by
  simp [acceptedOn, accept, decode, decodeG, encode, Instr.port, Except.toOption]

/-- The word of an operation is not reserved on the port that accepts the operation, whatever its operands (R67). -/
theorem reservedOn_encode (i : Instr) : reservedOn i.port (some (encode i)) = none := by
  cases i <;> simp [reservedOn, accept, decode, decodeN, decodeP, decodePNoValue, decodeG, encode, Instr.port]

theorem clean_ofInstr (i : Instr) (d : Grid) : (StepIn.ofInstr i d).clean = true := by
  refine clean_iff.2 (.inr fun p => ?_)
  by_cases hp : p = i.port
  · rw [hp, StepIn.ofInstr, cmdOn_single_same, reservedOn_encode]
  · rw [StepIn.ofInstr, cmdOn_single_other _ _ hp, reservedOn_none]

theorem cellAfter_ofInstr_glyph (sym : Nat) (d : Grid) (j : Nat) (b : Bool) :
    cellAfter j b (StepIn.ofInstr (.glyph sym) d) = b :=
  cellAfter_of_no_write rfl rfl j b

theorem cellAfter_ofInstr_setp (x y : Nat) (v : Bool) (d : Grid) (j : Nat) (b : Bool) :
    cellAfter j b (StepIn.ofInstr (.setp x y v) d) = if index x y = j then v else b := by
  have hacc : acceptedOn .w (StepIn.ofInstr (.setp x y v) d).wCmd = some (.setp (x % 4096) (y % 4096) v) :=
    acceptedOn_encode_setp x y v
  have hrst : (StepIn.ofInstr (.setp x y v) d).rst = false := rfl
  simp [cellAfter, hrst, hacc, index_lowBits]

/-! A cell's history (R49) when at most one value is written to it. -/

/-- A cell that every step leaves at its value keeps it. -/
theorem foldl_cellAfter_of_kept {inps : List StepIn} {j : Nat} {b : Bool}
    (h : ∀ inp ∈ inps, cellAfter j b inp = b) : inps.foldl (cellAfter j) b = b :=
  inps.foldlRecOn (motive := (· = b)) (cellAfter j) rfl fun _ hb inp hm => hb ▸ h inp hm

/-- A cell to which some step gives a value, and which no step takes from that value, has it in the end. -/
theorem foldl_cellAfter_of_written {inps : List StepIn} {inp : StepIn} {j : Nat} {v : Bool} (hmem : inp ∈ inps)
    (hwrite : ∀ b, cellAfter j b inp = v) (hkeep : ∀ inp ∈ inps, cellAfter j v inp = v) (b : Bool) :
    inps.foldl (cellAfter j) b = v := by
  obtain ⟨before, after, rfl⟩ := List.append_of_mem hmem
  rw [List.foldl_append, List.foldl_cons, hwrite]
  exact foldl_cellAfter_of_kept fun inp hm => hkeep inp (by simp [hm])

/-! The expansion of `DRAWHEX` (R147). -/

theorem drawHex_of_found {rom : GlyphRom} {sym : Nat} {rows : Vector Byte 5} (h : lookup rom sym = .found rows)
    (x y : Nat) : drawHex rom sym x y = .glyph sym :: drawRows rows x y := by
  rw [drawHex, h]

theorem drawHex_of_notFound {rom : GlyphRom} {sym : Nat} (h : lookup rom sym = .notFound) (x y : Nat) :
    drawHex rom sym x y = [.glyph sym] := by
  rw [drawHex, h]

theorem mem_drawRows {rows : Vector Byte 5} {x y : Nat} {op : Instr} :
    op ∈ drawRows rows x y ↔
      ∃ i, ∃ hi : i < 5, ∃ j < 4, op = .setp (x + j) (y + i) (rows[i].getLsbD (7 - j)) := by
  simp only [drawRows, rowPixel, Config.glyphRows, Config.glyphWidth, List.mem_flatMap, List.mem_map, List.mem_range]
  constructor
  · rintro ⟨i, hi, j, hj, rfl⟩
    exact ⟨i, hi, j, hj, by simp [hi]⟩
  · rintro ⟨i, hi, j, hj, rfl⟩
    exact ⟨i, hi, j, hj, by simp [hi]⟩

theorem length_drawRows (rows : Vector Byte 5) (x y : Nat) : (drawRows rows x y).length = 20 := rfl

/-- The pixels of a glyph are twenty different cells: no two of them are congruent, as the glyph is smaller than a
period (R84). -/
theorem index_pixel_inj {x y i j i' j' : Nat} (hi : i < 5) (hj : j < 4) (hi' : i' < 5) (hj' : j' < 4)
    (h : index (x + j) (y + i) = index (x + j') (y + i')) : i = i' ∧ j = j' := by
  have hcol := congrArg columnOf h
  have hrow := congrArg rowOf h
  rw [columnOf_index, columnOf_index] at hcol
  rw [rowOf_index, rowOf_index] at hrow
  omega

/-- No step of the expansion takes a cell from the value `v` when every pixel on that cell has the value `v`; so of a
cell that no pixel falls on, whatever its value. -/
theorem cellAfter_drawHex {sym x y : Nat} {rows : Vector Byte 5} {c : Nat} {v : Bool}
    (h : ∀ i (hi : i < 5) j, j < 4 → index (x + j) (y + i) = c → rows[i].getLsbD (7 - j) = v) (d : Grid) :
    ∀ inp ∈ (Instr.glyph sym :: drawRows rows x y).map (StepIn.ofInstr · d), cellAfter c v inp = v := by
  simp only [List.map_cons, List.forall_mem_cons, List.forall_mem_map]
  refine ⟨cellAfter_ofInstr_glyph sym d c v, fun op hop => ?_⟩
  obtain ⟨i, hi, j, hj, rfl⟩ := mem_drawRows.1 hop
  rw [cellAfter_ofInstr_setp]
  split_ifs with hc
  · exact h i hi j hj hc
  · rfl

/-- A host that presents operations one a step gets them all executed, and each cell has gone through its history. -/
theorem runSteps_ofInstr {ops : List Instr} {d : Grid} {s : State} (hhost : s.host = ops.map (StepIn.ofInstr · d)) :
    ∃ t, runSteps ops.length s = .next t ∧ t.host = [] ∧ ∀ c, c < 2048 →
      memReadCell t.fb c = (ops.map (StepIn.ofInstr · d)).foldl (cellAfter c) (memReadCell s.fb c) := by
  have hlen : (ops.map (StepIn.ofInstr · d)).length = ops.length := List.length_map _
  obtain ⟨t, ht, hrest⟩ := runSteps_completes_of_clean (rest := []) (hhost.trans (List.append_nil _).symm)
    (List.forall_mem_map.2 fun op _ => clean_ofInstr op d)
  rw [hlen] at ht
  refine ⟨t, ht, hrest, fun c hc => ?_⟩
  rw [everyCellHoldsItsLatestWrite _ s t ht c hc, hhost, ← hlen, List.take_length]

/-- A clean step that presents `GLYPH` and no write answers the lookup and leaves the cells (R144). -/
theorem step_of_glyph {s : State} {sym : Nat} {d : Grid} (hin : s.nextIn = StepIn.ofInstr (.glyph sym) d) :
    ∃ t, step s = .next t ∧ t.fb = s.fb ∧ t.out.g = some (lookup glyphRom (sym % 256)) := by
  obtain ⟨t, ht, hresp, -, -, -, hw⟩ :=
    responsesAreThoseOfTheStateBefore s (by rw [hin, clean_ofInstr]) (by rw [hin]; rfl)
  have hacc : acceptedOn .g (s.nextIn.cmdOn .g) = some (.glyph (sym % 256)) := by
    rw [hin]; exact acceptedOn_encode_glyph sym
  obtain ⟨-, -, outG, -⟩ := hresp .g _ _ hacc (exec_glyph _ _)
  obtain ⟨-, hfb⟩ := hw (by rw [hin]; rfl)
  exact ⟨t, ht, hfb, outG rfl⟩

/-- Settles O51: a pixel's cell is written by one `SETP` of the expansion and kept by the others, since the twenty cells
differ; any other cell is kept by all of them; and a symbol that is not found leaves the `GLYPH` alone. -/
theorem drawHexDrawsTheGlyph : Obligations.DrawHexDrawsTheGlyph := by
  refine ⟨?found, ?notFound⟩
  case found =>
    intro sym x y rows s hlookup hhost
    rw [drawHex_of_found hlookup] at hhost
    obtain ⟨t, ht, hrest, hcell⟩ := runSteps_ofInstr hhost
    rw [List.length_cons, length_drawRows] at ht
    refine ⟨t, ht, hrest, ?pixels, ?others⟩
    case pixels =>
      intro i hi j hj
      have hmem : Instr.setp (x + j) (y + i) (rows[i].getLsbD (7 - j)) ∈ .glyph sym :: drawRows rows x y :=
        List.mem_cons_of_mem _ (mem_drawRows.2 ⟨i, hi, j, hj, rfl⟩)
      rw [hcell _ (index_lt _ _)]
      refine foldl_cellAfter_of_written (List.mem_map_of_mem hmem) (fun b => ?write) (cellAfter_drawHex ?keep _) _
      case write => rw [cellAfter_ofInstr_setp, if_pos rfl]
      case keep =>
        intro i' hi' j' hj' hsame
        obtain ⟨rfl, rfl⟩ := index_pixel_inj hi' hj' hi hj hsame
        rfl
    case others =>
      intro c hc hother
      rw [hcell c hc]
      exact foldl_cellAfter_of_kept (cellAfter_drawHex (fun i hi j hj hsame => absurd hsame.symm (hother i j hi hj)) _)
  case notFound =>
    intro sym x y s hsym hlookup hhost
    rw [drawHex_of_notFound hlookup] at hhost
    obtain ⟨t, ht, hfb, hout⟩ := step_of_glyph (nextIn_cons hhost)
    rw [Nat.mod_eq_of_lt hsym, hlookup] at hout
    exact ⟨t, ht, by rw [step_host ht, hhost]; rfl, hfb, hout⟩

end Sys2Proof.Machine
end

section
/-! ### Proofs: no operation stops the block (spec/60_exceptions.md R160) -/

namespace Sys2Proof.Machine

/-- A step whose ports carry only words of their own operations is clean (R67, R167 (b)). -/
theorem clean_of_operations {inp : StepIn}
    (h : ∀ p w, inp.cmdOn p = some w → ∃ i : Instr, i.port = p ∧ w = encode i) : inp.clean = true := by
  refine clean_iff.2 (.inr fun p => ?_)
  cases hcmd : inp.cmdOn p with
  | none => exact reservedOn_none p
  | some w =>
    obtain ⟨i, rfl, rfl⟩ := h p w hcmd
    exact reservedOn_encode i

/-- Settles O35: an operation completes in every state, and the words of operations make a step clean, so that it
completes too. -/
theorem everyOperationCompletes : Obligations.EveryOperationCompletes := by
  refine ⟨fun i s => exec_completes s i, fun s inp rest hhost hops => step_completes_of_clean ?clean⟩
  case clean =>
    rw [nextIn_cons hhost]
    refine clean_of_operations fun p w hcmd => ?_
    obtain ⟨i, -, hport, hword⟩ := hops p w hcmd
    exact ⟨i, hport, hword⟩

end Sys2Proof.Machine
end

section
/-! ### Proofs: the reset step and same-step hazards (spec/70_reset_and_hazards.md R180, R181, R186) -/

namespace Sys2Proof.Machine

/-! A read beside a write (R186). -/

/-- A step that presents one operation of port R and one of port W carries no reserved word. -/
theorem clean_of_read_beside_write {i j : Instr} (hi : i.port = .r) (hj : j.port = .w) (d : Grid) :
    ({ StepIn.idle with rCmd := some (encode i), wCmd := some (encode j), wData := d } : StepIn).clean = true := by
  refine clean_of_operations fun p w hcmd => ?_
  cases p with
  | r => cases hcmd; exact ⟨i, hi, rfl⟩
  | w => cases hcmd; exact ⟨j, hj, rfl⟩
  | m => cases hcmd
  | g => cases hcmd

/-- A step with an operation on port R and one on port W answers on R what the read gives on the state in which the step
begins, whatever the write (R48). -/
theorem step_of_read_beside_write {s u : State} {i i' j : Instr} {d : Grid} {rest : List StepIn} (hi : i.port = .r)
    (hj : j.port = .w)
    (hhost : s.host =
      { StepIn.idle with rCmd := some (encode i), wCmd := some (encode j), wData := d } :: rest)
    (hacc : acceptedOn .r (some (encode i)) = some i') (hu : exec i' s.beginStep = .next u) :
    ∃ t, step s = .next t ∧ t.out.r = u.out.r := by
  have hin := nextIn_cons hhost
  have hclean : s.nextIn.clean = true := by rw [hin]; exact clean_of_read_beside_write hi hj d
  obtain ⟨t, ht, hresp, -⟩ := responsesAreThoseOfTheStateBefore s hclean (by rw [hin]; rfl)
  obtain ⟨-, outR, -, -⟩ := hresp .r i' u (by rw [hin]; exact hacc) hu
  exact ⟨t, ht, outR rfl⟩

theorem acceptedOn_encode_gets : acceptedOn .r (some (encode .gets)) = some .gets := by decide

/-- Settles O40: the read answers the cells as the step finds them, and the written cell goes through its history of
that one step. -/
theorem sameStepReadSeesTheOldValue : Obligations.SameStepReadSeesTheOldValue := by
  refine ⟨?getp, fun s i d rest hi => ⟨?gets, ?rend⟩⟩
  case getp =>
    intro s x y x' y' v d rest hsame hhost
    obtain ⟨t, ht, hout⟩ :=
      step_of_read_beside_write rfl rfl hhost (acceptedOn_encode_getp x y) (exec_getp s.beginStep _ _)
    refine ⟨t, ht, ?old, ?new⟩
    case old => rw [hout, respondR_out_r, beginStep_fb, index_lowBits, hsame]
    case new =>
      rw [memReadCell_step ht (index_lt x' y'), nextIn_cons hhost]
      exact cellAfter_of_setp rfl rfl _
  case gets =>
    intro hhost
    exact step_of_read_beside_write rfl hi hhost acceptedOn_encode_gets (exec_gets s.beginStep)
  case rend =>
    intro hhost
    exact step_of_read_beside_write rfl hi hhost acceptedOn_encode_rend (exec_rend s.beginStep)

/-! The reset step (R180). -/

/-- With `rst` asserted the step is the reset of the cells, whatever is presented beside it. -/
theorem step_of_rst {s : State} (h : s.nextIn.rst = true) : step s = .next s.beginStep.clearCells := if_pos h

/-- Settles O2: `rst` and `NEW` are one write of the zero grid, and a `rst` step leaves the ports as silent as
`beginStep` finds them. -/
theorem resetStepAndNewHaveOneEffect : Obligations.ResetStepAndNewHaveOneEffect := by
  intro s inp rest hhost hrst
  have hstep := step_of_rst (s := s) (by rwa [nextIn_cons hhost])
  refine ⟨_, _, hstep, exec_new s, ?sameCells, ?off, ?silent, ?inputs⟩
  case sameCells => rw [respondW_fb, clearCells_fb, clearCells_fb]
  case off =>
    intro i _
    rw [clearCells_fb, memReadCell_zero]
  case silent => rw [clearCells_out, beginStep_out]
  case inputs => rw [clearCells_host, beginStep_host, hhost, List.tail_cons]

end Sys2Proof.Machine
end

section
/-! ### Proofs: every operation has one word (spec/30_encoding.md R60 to R67) -/

namespace Sys2Proof

/-! The word of an operation decodes to the operation with its operands cut to their fields (R64). -/

/-- The operation whose operands are the low bits that a command word carries of them (R61, R62, R64). -/
def Instr.lowBits : Instr → Instr
  | .new => .new
  | .setp x y v => .setp (x % 4096) (y % 4096) v
  | .getp x y => .getp (x % 4096) (y % 4096)
  | .glyph sym => .glyph (sym % 256)
  | .gets => .gets
  | .puts => .puts
  | .rend => .rend
  | .map x y => .map (x % 4096) (y % 4096)

@[simp] theorem port_lowBits (i : Instr) : i.lowBits.port = i.port := by cases i <;> rfl

theorem lowBits_of_wf {i : Instr} (h : i.wf = true) : i.lowBits = i := by
  have hcoord {x y : Nat} (h : coordFits x y = true) : x % 4096 = x ∧ y % 4096 = y := by
    obtain ⟨hx, hy⟩ := coordFits_iff.1 h
    exact ⟨Nat.mod_eq_of_lt hx, Nat.mod_eq_of_lt hy⟩
  cases i with
  | setp x y v => simp [Instr.lowBits, hcoord h]
  | getp x y => simp [Instr.lowBits, hcoord h]
  | map x y => simp [Instr.lowBits, hcoord h]
  | glyph sym => simp [Instr.lowBits, Nat.mod_eq_of_lt (symFits_iff.1 h)]
  | _ => rfl

theorem matches_encode (i : Instr) : encode i &&& i.opMask = i.opMatch := by
  rw [opMatch_eq]
  cases i with
  | setp x y v => exact matchesP_iff.2 ⟨opOf_encodeP .., rsvP_encodeP ..⟩
  | getp x y => exact matchesPNoValue_iff.2 ⟨opOf_encodeP .., rsvP_encodeP .., vOf_encodeP ..⟩
  | map x y => exact matchesPNoValue_iff.2 ⟨opOf_encodeP .., rsvP_encodeP .., vOf_encodeP ..⟩
  | glyph sym => exact matchesG_iff.2 ⟨opOf_encodeG .., rsvG_encodeG ..⟩
  | _ => exact matchesN_iff.2 ⟨opOf_encodeN _, rsvN_encodeN _⟩

theorem withFields_encode (i : Instr) : i.withFields (encode i) = i.lowBits := by
  cases i <;> simp [Instr.withFields, Instr.lowBits, encode]

theorem decode_encode (i : Instr) : decode (encode i) = .ok i.lowBits := by
  rw [decode_of_matches (matches_encode i), withFields_encode]

theorem accept_encode (i : Instr) : accept i.port (encode i) = .ok i.lowBits :=
  accept_ok.2 ⟨decode_encode i, port_lowBits i⟩

/-- Settles O4: a word carries the low bits of the operands, which are all of them when the operation is
well-formed. -/
theorem decodeOfEncodeIsIdentity : Obligations.DecodeOfEncodeIsIdentity := by
  intro i hwf
  have hlow := lowBits_of_wf hwf
  exact ⟨(decode_encode i).trans (by rw [hlow]), (accept_encode i).trans (by rw [hlow])⟩

/-! A word is determined by the fields of its format. -/

theorem xOf_eq (w : Word) : xOf w = w.toNat % 2 ^ 12 := by simp [xOf]

theorem yOf_eq (w : Word) : yOf w = w.toNat / 2 ^ 12 % 2 ^ 12 := by simp [yOf, Nat.shiftRight_eq_div_pow]

theorem symOf_eq (w : Word) : symOf w = w.toNat % 2 ^ 8 := by simp [symOf]

/-- Two words of format N with one `op` are the same word (R63). -/
theorem eq_of_fieldsN {u w : Word} (hop : opOf u = opOf w) (hu : rsvN u = 0#28) (hw : rsvN w = 0#28) : u = w := by
  rw [rsvN_eq_zero_iff] at hu hw
  rw [opOf_eq_iff, opOf_toNat] at hop
  apply BitVec.eq_of_toNat_eq
  omega

/-- Two words of format G with one `op` and one symbol are the same word (R62). -/
theorem eq_of_fieldsG {u w : Word} (hop : opOf u = opOf w) (hu : rsvG u = 0#20) (hw : rsvG w = 0#20)
    (hsym : symOf u = symOf w) : u = w := by
  rw [rsvG_eq_zero_iff] at hu hw
  rw [opOf_eq_iff, opOf_toNat] at hop
  rw [symOf_eq, symOf_eq] at hsym
  apply BitVec.eq_of_toNat_eq
  omega

/-- Two words of format P with one `op`, one value and one coordinate are the same word (R61). -/
theorem eq_of_fieldsP {u w : Word} (hop : opOf u = opOf w) (hu : rsvP u = 0#3) (hw : rsvP w = 0#3)
    (hv : vOf u = vOf w) (hx : xOf u = xOf w) (hy : yOf u = yOf w) : u = w := by
  have hbit : u.toNat / 2 ^ 24 % 2 = 0 ↔ w.toNat / 2 ^ 24 % 2 = 0 := by
    rw [← vOf_eq_false_iff, ← vOf_eq_false_iff, hv]
  rw [rsvP_eq_zero_iff] at hu hw
  rw [opOf_eq_iff, opOf_toNat] at hop
  rw [xOf_eq, xOf_eq] at hx
  rw [yOf_eq, yOf_eq] at hy
  apply BitVec.eq_of_toNat_eq
  omega

theorem xOf_lt (w : Word) : xOf w < 4096 := (w.extractLsb' 0 12).isLt

theorem yOf_lt (w : Word) : yOf w < 4096 := (w.extractLsb' 12 12).isLt

theorem symOf_lt (w : Word) : symOf w < 256 := (w.extractLsb' 0 8).isLt

theorem encodeN_fields {w : Word} {op : BitVec 4} (hop : opOf w = op) (hrsv : rsvN w = 0#28) : encodeN op = w :=
  eq_of_fieldsN ((opOf_encodeN op).trans hop.symm) (rsvN_encodeN op) hrsv

theorem encodeG_fields {w : Word} {op : BitVec 4} (hop : opOf w = op) (hrsv : rsvG w = 0#20) :
    encodeG op (symOf w) = w :=
  eq_of_fieldsG ((opOf_encodeG ..).trans hop.symm) (rsvG_encodeG ..) hrsv
    ((symOf_encodeG ..).trans (Nat.mod_eq_of_lt (symOf_lt w)))

theorem encodeP_fields {w : Word} {op : BitVec 4} (hop : opOf w = op) (hrsv : rsvP w = 0#3) :
    encodeP op (vOf w) (xOf w) (yOf w) = w :=
  eq_of_fieldsP ((opOf_encodeP ..).trans hop.symm) (rsvP_encodeP ..) hrsv (vOf_encodeP ..)
    ((xOf_encodeP ..).trans (Nat.mod_eq_of_lt (xOf_lt w))) ((yOf_encodeP ..).trans (Nat.mod_eq_of_lt (yOf_lt w)))

theorem encodePNoValue_fields {w : Word} {op : BitVec 4} (hop : opOf w = op) (hrsv : rsvP w = 0#3)
    (hv : vOf w = false) : encodeP op false (xOf w) (yOf w) = w := by
  rw [← hv, encodeP_fields hop hrsv]

/-- A word that matches a row is the word of the row's operation with the word's fields as operands. -/
theorem encode_withFields {w : Word} {j : Instr} (h : w &&& j.opMask = j.opMatch) :
    encode (j.withFields w) = w := by
  rw [opMatch_eq] at h
  cases j with
  | setp _ _ _ => obtain ⟨hop, hrsv⟩ := matchesP_iff.1 h; exact encodeP_fields hop hrsv
  | getp _ _ => obtain ⟨hop, hrsv, hv⟩ := matchesPNoValue_iff.1 h; exact encodePNoValue_fields hop hrsv hv
  | map _ _ => obtain ⟨hop, hrsv, hv⟩ := matchesPNoValue_iff.1 h; exact encodePNoValue_fields hop hrsv hv
  | glyph _ => obtain ⟨hop, hrsv⟩ := matchesG_iff.1 h; exact encodeG_fields hop hrsv
  | _ => obtain ⟨hop, hrsv⟩ := matchesN_iff.1 h; exact encodeN_fields hop hrsv

/-- Operands that come from a word's fields fit them. -/
theorem wf_withFields (w : Word) (j : Instr) : (j.withFields w).wf = true := by
  have hcoord : coordFits (xOf w) (yOf w) = true := coordFits_iff.2 ⟨xOf_lt w, yOf_lt w⟩
  cases j with
  | setp _ _ _ => exact hcoord
  | getp _ _ => exact hcoord
  | map _ _ => exact hcoord
  | glyph _ => exact symFits_iff.2 (symOf_lt w)
  | _ => rfl

theorem encode_of_decode {w : Word} {i : Instr} (h : decode w = .ok i) : encode i = w := by
  obtain ⟨hm, hf⟩ := matches_of_decode h
  rw [← hf, encode_withFields hm]

/-- Settles O5: a word that decodes matches its operation's row, and its fields are the operands. -/
theorem encodeOfDecodeIsIdentity : Obligations.EncodeOfDecodeIsIdentity := by
  intro w i h
  refine ⟨?wf, encode_of_decode h⟩
  case wf =>
    rw [← (matches_of_decode h).2]
    exact wf_withFields w i

/-! Reserved words (R67). -/

theorem accept_error {p : Port} {w : Word} :
    (∃ e, accept p w = .error e) ↔ ∀ i, decode w = .ok i → i.port ≠ p := by
  constructor
  · rintro ⟨e, he⟩ i hi rfl
    cases he.symm.trans (accept_ok.2 ⟨hi, rfl⟩)
  · intro h
    rcases accept_error_or_ok p w with ⟨i, hi⟩ | he
    · obtain ⟨hd, hp⟩ := accept_ok.1 hi
      exact absurd hp (h i hd)
    · exact he

/-- A word with the `op` of a row is reserved on a port unless the row matches it and is of that port. -/
theorem accept_error_of_op {p : Port} {w : Word} {j : Instr} (hop : opOf w = j.opcode) :
    (∃ e, accept p w = .error e) ↔ w &&& j.opMask ≠ j.opMatch ∨ p ≠ j.port := by
  rw [accept_error]
  constructor
  · intro h
    by_contra! hc
    obtain ⟨hm, hp⟩ := hc
    exact h _ ((decode_ok_of_op hop).2 ⟨hm, rfl⟩) ((port_withFields w j).trans hp.symm)
  · intro h i hi hp
    obtain ⟨hm, rfl⟩ := (decode_ok_of_op hop).1 hi
    exact h.elim (fun hne => hne hm) (fun hne => hne (by rw [← hp, port_withFields]))

/-- Settles O7: a word with the `op` of a row is reserved when the row does not match it, that is for its `rsv` or `v`,
or when the row is of another port. -/
theorem reservedWordsAreExactlyThese : Obligations.ReservedWordsAreExactlyThese := by
  intro p w
  change _ ↔ (opOf w).toNat = 0 ∨ 9 ≤ (opOf w).toNat ∨ ((opOf w).toNat ∈ [2, 3, 8] ∧ rsvP w ≠ 0#3) ∨
      ((opOf w).toNat = 4 ∧ rsvG w ≠ 0#20) ∨ ((opOf w).toNat ∈ [1, 5, 6, 7] ∧ rsvN w ≠ 0#28) ∨
      ((opOf w).toNat ∈ [3, 8] ∧ vOf w = true) ∨ ((opOf w).toNat ∈ [1, 2, 6] ∧ p ≠ .w) ∨
      ((opOf w).toNat ∈ [3, 5, 7] ∧ p ≠ .r) ∨ ((opOf w).toNat = 4 ∧ p ≠ .g) ∨ ((opOf w).toNat = 8 ∧ p ≠ .m)
  rcases reserved_or_opcode (opOf w) with hres | ⟨j, -, hop⟩
  · have herr : ∃ e, accept p w = .error e := accept_error.2 fun i hi => by
      cases hi.symm.trans (decode_of_reserved_op hres)
    simp only [herr, true_iff]
    tauto
  · rw [accept_error_of_op hop, opMatch_eq]
    cases j with
    | setp _ _ _ => simp [hop, Instr.opMask, Instr.opcode, Instr.port, matchesP_iff]
    | getp _ _ => simp [hop, Instr.opMask, Instr.opcode, Instr.port, matchesPNoValue_iff, imp_iff_not_or, or_assoc]
    | map _ _ => simp [hop, Instr.opMask, Instr.opcode, Instr.port, matchesPNoValue_iff, imp_iff_not_or, or_assoc]
    | glyph _ => simp [hop, Instr.opMask, Instr.opcode, Instr.port, matchesG_iff]
    | _ => simp [hop, Instr.opMask, Instr.opcode, Instr.port, matchesN_iff]

/-- Settles O3: each word is decoded by evaluation. -/
theorem workedEncodingsDecode : Obligations.WorkedEncodingsDecode := by
  unfold Obligations.WorkedEncodingsDecode
  decide

end Sys2Proof
end

section
/-! ### Proofs: the low 12 bits of a coordinate (spec/30_encoding.md R64) -/

namespace Sys2Proof.Machine

/-- The low bits of the operands mean what the operands mean, of a symbol when it has no higher ones (R83). -/
theorem exec_lowBits {i : Instr} (hsym : ∀ sym, i = .glyph sym → sym < 256) (s : State) :
    exec i.lowBits s = exec i s := by
  cases i with
  | glyph sym => rw [Instr.lowBits, Nat.mod_eq_of_lt (hsym sym rfl)]
  | _ => simp [Instr.lowBits, index_lowBits, indexBits]

/-- Settles O8: the word carries the operands' low bits. -/
theorem truncatedCoordinatesKeepTheirMeaning : Obligations.TruncatedCoordinatesKeepTheirMeaning := by
  intro i s hsym
  exact ⟨i.lowBits, accept_encode i, exec_lowBits hsym s⟩

end Sys2Proof.Machine
end

section
/-! ### Proofs: what a step refuses, what it depends on, what it changes (spec/20_memory.md R48) -/

namespace Sys2Proof.Machine

/-! What the host presents, and how a step ends. -/

/-- What holds of all that the host presents and of an idle step holds of the coming step (R188). -/
theorem nextIn_of_forall {P : StepIn → Prop} {s : State} (hidle : P StepIn.idle) (h : ∀ inp ∈ s.host, P inp) :
    P s.nextIn := by
  cases hhost : s.host with
  | nil => rwa [nextIn_nil hhost]
  | cons inp rest => rw [nextIn_cons hhost]; exact h inp (by simp [hhost])

/-- A step that answers a next state presented no reserved word. -/
theorem clean_of_step {s t : State} (h : step s = .next t) : s.nextIn.clean = true := by
  rcases step_cases s with ⟨hr, -⟩ | ⟨-, p, e, -, hs⟩ | ⟨-, hres, -⟩
  · exact clean_iff.2 (.inl hr)
  · cases h.symm.trans hs
  · exact clean_iff.2 (.inr hres)

/-- Settles O36: of what a step can do, the refusal alone is of a step that is not clean. -/
theorem stepIsRefusedExactlyOnReservedWords : Obligations.StepIsRefusedExactlyOnReservedWords := by
  intro s
  refine ⟨step_completes_of_clean, fun hc => ?refused⟩
  case refused =>
    rcases step_cases s with ⟨hr, -⟩ | ⟨-, p, e, hres, hs⟩ | ⟨-, hres, -⟩
    · simp [clean_iff.2 (.inl hr)] at hc
    · obtain ⟨w, hcmd, he⟩ := reservedOn_some.1 hres
      exact ⟨p, w, e, hs, hcmd, he⟩
    · simp [clean_iff.2 (.inr hres)] at hc

theorem nextIn_congr {s s' : State} (hhost : s.host = s'.host) : s.nextIn = s'.nextIn :=
  congrArg (·.headD StepIn.idle) hhost

/-- The old responses and the old `w_data` are gone when a step begins. -/
theorem beginStep_congr {s s' : State} (hfb : s.fb = s'.fb) (hhost : s.host = s'.host) :
    s.beginStep = s'.beginStep := by
  simp [State.beginStep, nextIn_congr hhost, hfb, hhost]

/-- Settles O42: a step sees the state through the coming input and `beginStep` alone. -/
theorem gridAndInputsDetermineTheStep : Obligations.GridAndInputsDetermineTheStep := by
  intro s s' hfb hhost
  rw [step, step, nextIn_congr hhost, beginStep_congr hfb hhost]

/-! The cells after a step depend on the cells and the inputs of the step. -/

theorem step_fb_congr {s s' t t' : State} (hfb : s.fb = s'.fb) (hin : s.nextIn = s'.nextIn)
    (h : step s = .next t) (h' : step s' = .next t') : t.fb = t'.fb := by
  apply grid_ext
  intro j hj
  rw [memReadCell_step h hj, memReadCell_step h' hj, hfb, hin]

/-- A step without a reset and without an operation on port W leaves the cells. -/
theorem step_fb_of_no_write {s t : State} (hr : s.nextIn.rst = false) (ha : acceptedOn .w s.nextIn.wCmd = none)
    (h : step s = .next t) : t.fb = s.fb := by
  apply grid_ext
  intro j hj
  rw [memReadCell_step h hj, cellAfter_of_no_write hr ha]

/-- Settles O43: a step that changes a cell is a reset or has an operation accepted on port W, of which there are
three. -/
theorem cellsChangeOnlyByWritesOrReset : Obligations.CellsChangeOnlyByWritesOrReset := by
  intro s t h hne
  by_cases hr : s.nextIn.rst = true
  · exact .inl hr
  · rw [Bool.not_eq_true] at hr
    refine .inr ?_
    cases ha : acceptedOn .w s.nextIn.wCmd with
    | none => exact absurd (step_fb_of_no_write hr ha h) hne
    | some i =>
      obtain ⟨w, hcmd, hacc⟩ := acceptedOn_some.1 ha
      refine ⟨w, i, hcmd, hacc, ?_⟩
      cases i with
      | new => exact .inl rfl
      | puts => exact .inr (.inl rfl)
      | setp x y v => exact .inr (.inr ⟨x, y, v, rfl⟩)
      | _ => cases acceptedOn_port ha

end Sys2Proof.Machine
end

section
/-! ### Proofs: runs of a host that keeps its duties (spec/60_exceptions.md R160, R167) -/

namespace Sys2Proof.Machine

/-- A run takes one input a step. -/
theorem runSteps_host {k : Nat} {s t : State} (h : runSteps k s = .next t) : t.host = s.host.drop k := by
  induction k generalizing s with
  | zero => cases h; rfl
  | succ k ih =>
    obtain ⟨u, hu, hrest⟩ := runSteps_succ_next h
    rw [ih hrest, step_host hu, List.drop_tail]

/-- What holds of all that the host presents holds of all that it presents after a step. -/
theorem forall_host_of_step {P : StepIn → Prop} {s t : State} (hs : ∀ inp ∈ s.host, P inp)
    (h : step s = .next t) : ∀ inp ∈ t.host, P inp := by
  rw [step_host h]
  exact fun inp hm => hs inp (List.mem_of_mem_tail hm)

/-- Settles O45, by induction on the number of steps: a clean step completes and leaves the host's duty. -/
theorem cleanRunsNeverStop : Obligations.CleanRunsNeverStop := by
  intro k s hclean
  induction k generalizing s with
  | zero => exact ⟨s, rfl, rfl, hclean⟩
  | succ k ih =>
    obtain ⟨u, hu⟩ := step_completes_of_clean (nextIn_of_forall (P := (·.clean = true)) rfl hclean)
    obtain ⟨t, ht, -, htclean⟩ := ih u (forall_host_of_step hclean hu)
    have hrun := (runSteps_succ hu).trans ht
    exact ⟨t, hrun, runSteps_host hrun, htclean⟩

theorem port_ne_w_of_presentation {i : Instr} (h : Role.presentation.mayIssue i = true) : i.port ≠ .w := by
  cases i <;> simp_all [Role.mayIssue, Instr.port]

/-- What the presentation layer issues resets nothing and has no operation on port W (R167). -/
theorem no_write_of_issuedBy_presentation {inp : StepIn} (h : inp.issuedBy .presentation = true) :
    inp.rst = false ∧ acceptedOn .w inp.wCmd = none := by
  simp only [StepIn.issuedBy, reduceCtorEq, decide_false, Bool.false_or, Bool.and_eq_true, Bool.not_eq_true',
    List.all_eq_true] at h
  obtain ⟨hrst, hports⟩ := h
  refine ⟨hrst, ?_⟩
  have hw := hports .w (by simp)
  rw [cmdOn_w] at hw
  cases ha : acceptedOn .w inp.wCmd with
  | none => rfl
  | some i =>
    rw [ha] at hw
    exact absurd (acceptedOn_port ha) (port_ne_w_of_presentation hw)

/-- Settles O49, by induction on the number of steps: no step of role P touches a cell. -/
theorem presentationLayerNeverChangesCells : Obligations.PresentationLayerNeverChangesCells := by
  intro k s t hissued h
  induction k generalizing s with
  | zero => cases h; rfl
  | succ k ih =>
    obtain ⟨u, hu, hrest⟩ := runSteps_succ_next h
    obtain ⟨hr, ha⟩ := no_write_of_issuedBy_presentation
      (nextIn_of_forall (P := (·.issuedBy .presentation = true)) (by decide) hissued)
    rw [ih u (forall_host_of_step hissued hu) hrest, step_fb_of_no_write hr ha hu]

end Sys2Proof.Machine
end

section
/-! ### Proofs: the invariant of a safe run (spec/60_exceptions.md R167) -/

namespace Sys2Proof.Machine

/-- Without a response on its pins before, port R answers something the block can give. -/
theorem readGenuine_of_runPort {inp : StepIn} {s t : State} (hs : s.out.r = none) (h : runPort inp .r s = .next t)
    {a : ReadRsp} (ha : t.out.r = some a) : a.genuine := by
  rcases runPort_cases inp .r s with ⟨-, hrun⟩ | ⟨i, -, hport, hrun⟩
  · cases h.symm.trans hrun
    simp [hs] at ha
  · have hexec := hrun.symm.trans h
    cases i with
    | getp x y => cases hexec; cases ha; trivial
    | gets => cases hexec; cases ha; trivial
    | rend => cases hexec; cases ha; exact ⟨s.fb, rfl⟩
    | _ => cases hport

theorem lookup_genuine (sym : Nat) : (lookup glyphRom sym).genuine := by
  rcases lookup_cases glyphRom sym with ⟨-, h⟩ | ⟨k, hk, -, h⟩ <;> rw [h]
  · trivial
  · exact ⟨k, hk, rfl⟩

/-- Without a response on its pins before, port G answers something the block can give. -/
theorem glyphGenuine_of_runPort {inp : StepIn} {s t : State} (hs : s.out.g = none) (h : runPort inp .g s = .next t)
    {a : GlyphRsp} (ha : t.out.g = some a) : a.genuine := by
  rcases runPort_cases inp .g s with ⟨-, hrun⟩ | ⟨i, -, hport, hrun⟩
  · cases h.symm.trans hrun
    simp [hs] at ha
  · have hexec := hrun.symm.trans h
    cases i with
    | glyph sym => cases hexec; cases ha; exact lookup_genuine sym
    | _ => cases hport

/-- Settles O46: a step takes inputs off the host's list, and a response after it is one that the step gave. -/
theorem safeRunIsKeptByEveryStep : Obligations.SafeRunIsKeptByEveryStep := by
  intro s t hinv h
  have hclean : t.HostClean := forall_host_of_step hinv.hostClean h
  rcases step_cases s with ⟨-, hs⟩ | ⟨-, p, e, -, hs⟩ | ⟨-, -, hs⟩
  · cases h.symm.trans hs
    exact ⟨hclean, by simp, by simp⟩
  · cases h.symm.trans hs
  · obtain ⟨t', r, -, g, -, ht, hr, -, hg, -, -, outR, -, outG, -⟩ := transition_spec s.nextIn s.beginStep
    cases h.symm.trans (hs.trans ht)
    exact ⟨hclean, fun a ha => readGenuine_of_runPort rfl hr (outR ▸ ha),
      fun a ha => glyphGenuine_of_runPort rfl hg (outG ▸ ha)⟩

/-- Settles O47: at reset nothing is presented and no port answers. -/
theorem safeRunHoldsAtReset : Obligations.SafeRunHoldsAtReset :=
  ⟨by simp [State.HostClean], by simp, by simp⟩

end Sys2Proof.Machine
end

section
/-! ### Proofs: an idle step between two others (spec/70_reset_and_hazards.md R188) -/

namespace Sys2Proof.Machine

/-- Two states with equal cells and one coming input step alike: the other inputs have no part in it. -/
theorem step_of_same_input {s s' t : State} (hfb : s.fb = s'.fb) (hin : s.nextIn = s'.nextIn)
    (h : step s = .next t) : ∃ t', step s' = .next t' ∧ t.fb = t'.fb := by
  obtain ⟨t', h'⟩ := step_completes_of_clean (hin ▸ clean_of_step h)
  exact ⟨t', h', step_fb_congr hfb hin h h'⟩

/-- Runs over equal inputs from equal cells complete alike, whatever the host presents after them. -/
theorem runSteps_of_same_inputs {inps rest rest' : List StepIn} {s s' t : State} (hfb : s.fb = s'.fb)
    (hhost : s.host = inps ++ rest) (hhost' : s'.host = inps ++ rest') (h : runSteps inps.length s = .next t) :
    ∃ t', runSteps inps.length s' = .next t' ∧ t.fb = t'.fb := by
  induction inps generalizing s s' with
  | nil => cases h; exact ⟨s', rfl, hfb⟩
  | cons inp inps ih =>
    obtain ⟨u, hu, hrest⟩ := runSteps_succ_next h
    obtain ⟨u', hu', hufb⟩ := step_of_same_input hfb ((nextIn_cons hhost).trans (nextIn_cons hhost').symm) hu
    obtain ⟨t', ht', htfb⟩ := ih hufb (by rw [step_host hu, hhost]; rfl) (by rw [step_host hu', hhost']; rfl) hrest
    exact ⟨t', (runSteps_succ hu').trans ht', htfb⟩

/-- An idle step completes, leaves the cells, and takes itself off the host's list. -/
theorem step_of_idle {s : State} {rest : List StepIn} (hhost : s.host = StepIn.idle :: rest) :
    ∃ t, step s = .next t ∧ t.fb = s.fb ∧ t.host = rest := by
  have hin : s.nextIn = StepIn.idle := nextIn_cons hhost
  obtain ⟨t, ht⟩ := step_completes_of_clean (s := s) (by rw [hin]; rfl)
  exact ⟨t, ht, step_fb_of_no_write (by rw [hin]; rfl) (by rw [hin]; rfl) ht, by rw [step_host ht, hhost]; rfl⟩

/-- Runs of at least one step from equal cells and inputs are equal. -/
theorem runSteps_succ_congr {s s' : State} (hfb : s.fb = s'.fb) (hhost : s.host = s'.host) (k : Nat) :
    runSteps (k + 1) s = runSteps (k + 1) s' := by
  rw [runSteps, runSteps, gridAndInputsDetermineTheStep s s' hfb hhost]

/-- A run of `a + b` steps that completes has its first part complete. -/
theorem runSteps_add_next {a b : Nat} {s u : State} (h : runSteps (a + b) s = .next u) :
    ∃ t, runSteps a s = .next t ∧ runSteps b t = .next u := by
  induction a generalizing s with
  | zero => exact ⟨s, rfl, by rwa [Nat.zero_add] at h⟩
  | succ a ih =>
    rw [Nat.succ_add] at h
    obtain ⟨v, hv, hrest⟩ := runSteps_succ_next h
    obtain ⟨t, ht, htu⟩ := ih hrest
    exact ⟨t, (runSteps_succ hv).trans ht, htu⟩

/-- Settles O48: up to the idle step the runs have the same inputs, it leaves the cells, and what follows begins from
equal cells and inputs. -/
theorem idleStepsChangeNoResult : Obligations.IdleStepsChangeNoResult := by
  intro s t before after h
  obtain ⟨v, hv, hrest⟩ := runSteps_add_next h
  obtain ⟨v', hv', hvfb⟩ := runSteps_of_same_inputs (s := { s with host := before ++ after })
    (s' := { s with host := before ++ StepIn.idle :: after }) rfl rfl rfl hv
  have hvhost : v.host = after := by rw [runSteps_host hv]; exact List.drop_left
  have hvhost' : v'.host = StepIn.idle :: after := by rw [runSteps_host hv']; exact List.drop_left
  obtain ⟨w, hw, hwfb, hwhost⟩ := step_of_idle hvhost'
  have hidle : runSteps (before.length + 1) { s with host := before ++ StepIn.idle :: after } = .next w :=
    (runSteps_add 1 hv').trans (runSteps_succ hw)
  have hfb : w.fb = v.fb := hwfb.trans hvfb.symm
  have hhost : w.host = v.host := hwhost.trans hvhost.symm
  cases after with
  | nil => cases hrest; exact ⟨w, hidle, hfb, hhost, by simp⟩
  | cons inp after =>
    have hsame : runSteps (inp :: after).length w = .next t :=
      (runSteps_succ_congr hfb hhost _).trans hrest
    exact ⟨t, (runSteps_add _ hidle).trans hsame, rfl, rfl, fun _ => rfl⟩

end Sys2Proof.Machine
end

section
/-! ### Proofs: a host that resets before use (spec/70_reset_and_hazards.md R183, R184) -/

namespace Sys2Proof.Machine

/-- Outside port R a response does not depend on the cells. -/
theorem exec_out_congr {i : Instr} {s s' t t' : State} (hi : i.port ≠ .r) (hout : s.out = s'.out)
    (h : exec i s = .next t) (h' : exec i s' = .next t') : t.out = t'.out := by
  cases i with
  | getp x y => exact absurd rfl hi
  | gets => exact absurd rfl hi
  | rend => exact absurd rfl hi
  | new => cases h; cases h'; simp [State.respondW, hout]
  | setp x y v => cases h; cases h'; simp [State.respondW, hout]
  | puts => cases h; cases h'; simp [State.respondW, hout]
  | map x y => cases h; cases h'; simp [State.respondM, hout]
  | glyph sym => cases h; cases h'; simp [State.respondG, hout]

theorem runPort_out_congr {inp : StepIn} {p : Port} {s s' t t' : State} (hr : acceptedOn .r inp.rCmd = none)
    (hout : s.out = s'.out) (h : runPort inp p s = .next t) (h' : runPort inp p s' = .next t') : t.out = t'.out := by
  cases ha : acceptedOn p (inp.cmdOn p) with
  | none =>
    cases h.symm.trans (runPort_of_none_accepted ha s)
    cases h'.symm.trans (runPort_of_none_accepted ha s')
    exact hout
  | some i =>
    have hi : i.port ≠ .r := by
      intro hport
      obtain rfl : p = .r := (acceptedOn_port ha).symm.trans hport
      simp [hr] at ha
    exact exec_out_congr hi hout ((runPort_of_accepted ha s).symm.trans h)
      ((runPort_of_accepted ha s').symm.trans h')

theorem andThen_eq_next {o : Host.Outcome State Fault Refusal} {f : State → Host.Outcome State Fault Refusal}
    {t : State} (h : andThen o f = .next t) : ∃ s, o = .next s ∧ f s = .next t := by
  cases o with
  | next s => exact ⟨s, rfl, h⟩
  | fault e => exact nomatch e
  | refused e => cases h

theorem transition_out_congr {inp : StepIn} {s s' t t' : State} (hr : acceptedOn .r inp.rCmd = none)
    (hout : s.out = s'.out) (h : transition inp s = .next t) (h' : transition inp s' = .next t') :
    t.out = t'.out := by
  obtain ⟨g, hg, hw⟩ := andThen_eq_next h
  obtain ⟨m, hm, hg⟩ := andThen_eq_next hg
  obtain ⟨r, hr₁, hm⟩ := andThen_eq_next hm
  obtain ⟨g', hg', hw'⟩ := andThen_eq_next h'
  obtain ⟨m', hm', hg'⟩ := andThen_eq_next hg'
  obtain ⟨r', hr₁', hm'⟩ := andThen_eq_next hm'
  have outR := runPort_out_congr hr hout hr₁ hr₁'
  have outM := runPort_out_congr hr outR hm hm'
  have outG := runPort_out_congr hr outM hg hg'
  exact runPort_out_congr hr outG hw hw'

/-- The responses of a reset, and of a step without an operation on port R, do not depend on the cells. -/
theorem step_out_congr {s s' t t' : State} (hin : s.nextIn = s'.nextIn)
    (hr : s.nextIn.rst = true ∨ acceptedOn .r s.nextIn.rCmd = none) (h : step s = .next t) (h' : step s' = .next t') :
    t.out = t'.out := by
  by_cases hrst : s.nextIn.rst = true
  · cases h.symm.trans (step_of_rst hrst)
    cases h'.symm.trans (step_of_rst (hin ▸ hrst))
    rfl
  · have hacc := hr.resolve_left hrst
    rw [Bool.not_eq_true] at hrst
    have ht := (step_of_clean (clean_of_step h) hrst).symm.trans h
    have ht' := (step_of_clean (clean_of_step h') (hin ▸ hrst)).symm.trans h'
    rw [← hin] at ht'
    exact transition_out_congr (s := s.beginStep) (s' := s'.beginStep) hacc rfl ht ht'

/-- What a host does first that resets the cell store before it uses it (R183): reset it, or leave it alone and go on
so. -/
theorem resetBeforeUse_cases {s : State} (h : resetBeforeUse s.host = true) :
    (s.nextIn.rst = true ∨ acceptedOn .r s.nextIn.rCmd = none) ∧
      ((∀ j b, cellAfter j b s.nextIn = false) ∨
        resetBeforeUse s.host.tail = true) := by
  cases hhost : s.host with
  | nil => rw [nextIn_nil hhost]; exact ⟨.inr rfl, .inr rfl⟩
  | cons inp rest =>
    rw [nextIn_cons hhost, List.tail_cons]
    simp only [hhost, resetBeforeUse, Bool.or_eq_true, Bool.and_eq_true, Option.isNone_iff_eq_none] at h
    cases hrst : inp.rst with
    | true => exact ⟨.inl rfl, .inl (cellAfter_of_rst hrst)⟩
    | false =>
      obtain ⟨hr, hw⟩ := h.resolve_left (by simp [hrst])
      refine ⟨.inr (by rw [hr, acceptedOn_none]), ?_⟩
      cases ha : acceptedOn .w inp.wCmd with
      | none => exact .inr (by simpa [ha] using hw)
      | some i =>
        obtain rfl : i = .new := by simpa [ha] using hw
        exact .inl fun j b => by simp [cellAfter, hrst, ha]

/-- Settles O50, by induction on the number of steps: until the reset nothing depends on the cells, and from it on the
cells are equal. -/
theorem contentBeforeResetIsNotObservable : Obligations.ContentBeforeResetIsNotObservable := by
  intro k s s' t t' hhost huse h h'
  induction k generalizing s s' with
  | zero =>
    obtain ⟨u, hu, hrest⟩ := runSteps_succ_next h
    obtain ⟨u', hu', hrest'⟩ := runSteps_succ_next h'
    cases hrest
    cases hrest'
    exact step_out_congr (nextIn_congr hhost) (resetBeforeUse_cases huse).1 hu hu'
  | succ k ih =>
    obtain ⟨u, hu, hrest⟩ := runSteps_succ_next h
    obtain ⟨u', hu', hrest'⟩ := runSteps_succ_next h'
    have huhost : u.host = u'.host := by rw [step_host hu, step_host hu', hhost]
    rcases (resetBeforeUse_cases huse).2 with hclear | huse'
    · have hfb : u.fb = u'.fb := grid_ext fun j hj => by
        rw [memReadCell_step hu hj, memReadCell_step hu' hj, ← nextIn_congr hhost, hclear, hclear]
      rw [runSteps_succ_congr hfb huhost] at hrest
      cases hrest.symm.trans hrest'
      rfl
    · exact ih u u' huhost (by rwa [step_host hu]) hrest hrest'

end Sys2Proof.Machine
end

section
/-! ### Proofs: operations and ports in one step (spec/20_memory.md R48; spec/30_encoding.md R66, R67) -/

namespace Sys2Proof.Machine

/-! One word on one port. -/

/-- A word accepted on a port is the word of the operation accepted (R65, R66). -/
theorem eq_encode_of_accept {p : Port} {w : Word} {i : Instr} (h : accept p w = .ok i) :
    i.port = p ∧ w = encode i := by
  obtain ⟨hd, hp⟩ := accept_ok.1 h
  exact ⟨hp, (encode_of_decode hd).symm⟩

theorem acceptedOn_of_accept {p : Port} {w : Word} {i : Instr} (h : accept p w = .ok i) :
    acceptedOn p (some w) = some i := acceptedOn_some.2 ⟨w, rfl, h⟩

theorem clean_single_of_accept {p : Port} {w : Word} {i : Instr} (h : accept p w = .ok i) (d : Grid) :
    (StepIn.single p w d).clean = true := by
  obtain ⟨rfl, rfl⟩ := eq_encode_of_accept h
  exact clean_ofInstr i d

/-- Settles O33: the step is the transition, in which the one port runs alone. -/
theorem stepRunsThePresentedOperation : Obligations.StepRunsThePresentedOperation := by
  intro s p w d rest i hacc hhost
  have hin : s.nextIn = StepIn.single p w d := nextIn_cons hhost
  have hbegin : s.beginStep = { fb := s.fb, host := rest, wData := d, out := Outputs.silent } := by
    simp [State.beginStep, hin, hhost]
  have hon : acceptedOn p ((StepIn.single p w d).cmdOn p) = some i := by
    rw [cmdOn_single_same, acceptedOn_of_accept hacc]
  have hclean : s.nextIn.clean = true := by rw [hin, clean_single_of_accept hacc]
  have hrst : s.nextIn.rst = false := by rw [hin, rst_single]
  calc step s = transition s.nextIn s.beginStep := step_of_clean hclean hrst
    _ = runPort (StepIn.single p w d) p s.beginStep := by rw [hin, transition_single]
    _ = exec i _ := by rw [runPort_of_accepted hon, hbegin]

/-- The port read from the `op` of an operation's word is the one that accepts the operation. -/
theorem wordPort_encode (i : Instr) : wordPort (encode i) = i.port := by
  cases i with
  | new => exact Laws.PortOfWord.new
  | setp x y v => exact Laws.PortOfWord.setp x y v
  | getp x y => exact Laws.PortOfWord.getp x y
  | glyph sym => exact Laws.PortOfWord.glyph sym
  | gets => exact Laws.PortOfWord.gets
  | puts => exact Laws.PortOfWord.puts
  | rend => exact Laws.PortOfWord.rend
  | map x y => exact Laws.PortOfWord.map x y

/-- A word that decodes is accepted on the port of its `op`. -/
theorem accept_wordPort {w : Word} {i : Instr} (h : decode w = .ok i) : accept (wordPort w) w = .ok i := by
  refine accept_ok.2 ⟨h, ?_⟩
  rw [← encode_of_decode h, wordPort_encode]

/-- Settles O34: the word is placed alone on the port that accepts it. -/
theorem placedWordIsTheNextOperation : Obligations.PlacedWordIsTheNextOperation := by
  intro s nbits w i h
  have hd : decode (BitVec.ofNat 32 (w % 2 ^ nbits)) = .ok i := by
    rw [decodeTableWord] at h
    cases hdec : decode (BitVec.ofNat 32 (w % 2 ^ nbits)) with
    | ok j => rw [hdec] at h; cases h; rfl
    | error e => rw [hdec] at h; cases h
  exact stepRunsThePresentedOperation (s.withFetchWord nbits w) _ _ _ _ i (accept_wordPort hd) (presentWord_host s _)

/-! A reserved word (R67). -/

/-- A transition depends on the commands through the operations that are accepted. -/
theorem transition_congr {inp inp' : StepIn}
    (h : ∀ p, acceptedOn p (inp.cmdOn p) = acceptedOn p (inp'.cmdOn p)) : transition inp = transition inp' := by
  have hrun (p : Port) : runPort inp p = runPort inp' p := by
    funext s
    rw [runPort, runPort, h p]
  funext s
  simp only [transition, hrun]

/-- Settles O37: on its port a reserved word is as little executed as an absent one. -/
theorem reservedWordDisturbsNoOtherPort : Obligations.ReservedWordDisturbsNoOtherPort := by
  refine ⟨fun inp p e s hres => congrFun (transition_congr fun q => ?beside) s, ?alone⟩
  case beside =>
    by_cases hq : q = p
    · rw [hq, cmdOn_setCmd_same, acceptedOn_none, acceptedOn_of_reserved hres]
    · rw [cmdOn_setCmd_other _ _ hq]
  case alone =>
    intro p w d e s herr
    have hres : reservedOn p ((StepIn.single p w d).cmdOn p) = some e :=
      reservedOn_some.2 ⟨w, cmdOn_single_same p w d, herr⟩
    rw [transition_single, runPort_of_none_accepted (acceptedOn_of_reserved hres)]

/-! Ports M and G beside the others (R48, R146). -/

theorem exec_respondM {j : Instr} (hj : j.port ≠ .m) (idx : BitVec 11) (s : State) :
    exec j (s.respondM idx) = andThen (exec j s) fun t => .next (t.respondM idx) := by
  cases j with
  | map x y => exact absurd rfl hj
  | _ => rfl

theorem exec_respondG {j : Instr} (hj : j.port ≠ .g) (a : GlyphRsp) (s : State) :
    exec j (s.respondG a) = andThen (exec j s) fun t => .next (t.respondG a) := by
  cases j with
  | glyph sym => exact absurd rfl hj
  | _ => rfl

/-- Settles O41: the response of port M or G is written beside what the other operation reads and writes. -/
theorem mapAndGlyphCommuteWithOtherPorts : Obligations.MapAndGlyphCommuteWithOtherPorts := by
  intro i j s hi hj
  cases i with
  | map x y => exact exec_respondM hj (indexBits x y) s
  | glyph sym => exact exec_respondG hj (lookup glyphRom sym) s
  | _ => simp [Instr.port] at hi

/-! A read and a write in one step, and in two (R48). -/

/-- A step with a word accepted on R and one accepted on W answers what the two operations give on the state in which it
begins. -/
theorem step_of_read_and_write {s u v : State} {r w : Word} {d : Grid} {rest : List StepIn} {i j : Instr}
    (hhost : s.host = { StepIn.idle with rCmd := some r, wCmd := some w, wData := d } :: rest)
    (hr : accept .r r = .ok i) (hw : accept .w w = .ok j) (hu : exec i s.beginStep = .next u)
    (hv : exec j s.beginStep = .next v) :
    ∃ t, step s = .next t ∧ t.out.r = u.out.r ∧ t.out.w = v.out.w ∧ t.fb = v.fb := by
  have hin := nextIn_cons hhost
  have hclean : s.nextIn.clean = true := by
    obtain ⟨hi, hre⟩ := eq_encode_of_accept hr
    obtain ⟨hj, hwe⟩ := eq_encode_of_accept hw
    rw [hin, hre, hwe]
    exact clean_of_read_beside_write hi hj d
  obtain ⟨t, ht, hresp, -⟩ := responsesAreThoseOfTheStateBefore s hclean (by rw [hin]; rfl)
  obtain ⟨-, outR, -⟩ := hresp .r i u (by rw [hin]; exact acceptedOn_of_accept hr) hu
  obtain ⟨-, -, -, outW⟩ := hresp .w j v (by rw [hin]; exact acceptedOn_of_accept hw) hv
  exact ⟨t, ht, outR rfl, outW rfl⟩

/-- Settles O39: the read leaves the cells, so the write finds the same cells and `w_data` in the two steps as in the
one. -/
theorem readAndWriteStepEqualsReadThenWrite : Obligations.ReadAndWriteStepEqualsReadThenWrite := by
  intro s r w d rest i j hr hw
  have hip : i.port = .r := (eq_encode_of_accept hr).1
  have hjp : j.port = .w := (eq_encode_of_accept hw).1
  obtain ⟨u₁, hu₁⟩ := exec_completes _ i
  obtain ⟨v₁, hv₁⟩ := exec_completes _ j
  obtain ⟨t, ht, outR, outW, fb⟩ := step_of_read_and_write
    (s := { s with host := { StepIn.idle with rCmd := some r, wCmd := some w, wData := d } :: rest })
    rfl hr hw hu₁ hv₁
  obtain ⟨u, hu⟩ := exec_completes
    { fb := s.fb, host := StepIn.single .w w d :: rest, wData := d, out := Outputs.silent } i
  have hstepR := (stepRunsThePresentedOperation
    { s with host := StepIn.single .r r d :: StepIn.single .w w d :: rest } .r r d _ i hr rfl).trans hu
  obtain ⟨huhost, -, hufb, -⟩ := exec_frame hu
  obtain ⟨v, hv⟩ := exec_completes { fb := u.fb, host := rest, wData := d, out := Outputs.silent } j
  have hstepW := (stepRunsThePresentedOperation u .w w d rest j hw huhost).trans hv
  have hcells : u.fb = s.fb := hufb (by rw [hip]; decide)
  obtain ⟨-, sameR, -⟩ := exec_congr (by rfl) (by rfl) hu₁ hu
  obtain ⟨sameW, -⟩ := exec_congr (by exact hcells.symm) (by rfl) hv₁ hv
  obtain ⟨sameFb, sameOut⟩ := sameW hjp
  refine ⟨t, u, v, ht, hstepR, hstepW, fb.trans sameFb, outR.trans (sameR hip), outW.trans sameOut, ?inputs⟩
  case inputs => rw [step_host ht, step_host hstepW, huhost]; rfl

end Sys2Proof.Machine
end

section
/-! ### Proofs: cells and their coordinates (spec/10_state.md R22; spec/40_address_mapper.md R82, R83) -/

namespace Sys2Proof.Machine

/-- A mapped cell determines the remainders of its coordinate, and they determine it. -/
theorem index_eq_index_iff {x y x' y' : Nat} : index x y = index x' y' ↔ x % 64 = x' % 64 ∧ y % 32 = y' % 32 := by
  constructor
  · intro h
    rw [← columnOf_index x y, ← rowOf_index x y, h, columnOf_index, rowOf_index]
    exact ⟨rfl, rfl⟩
  · rintro ⟨hx, hy⟩
    rw [index_eq, index_eq, hx, hy]

/-- Settles O13: the mapper sees exactly the remainders of a coordinate. -/
theorem indexAliasesAreTheCongruentCoordinates : Obligations.IndexAliasesAreTheCongruentCoordinates := by
  refine ⟨fun x y x' y' => index_eq_index_iff, fun x y a b => index_eq_index_iff.2 ?period⟩
  case period => exact ⟨Nat.add_mul_mod_self_left x 64 a, Nat.add_mul_mod_self_left y 32 b⟩

/-- Settles O15: a cell's column and row are its remainder and quotient by 64, and within one period the mapper is
`cellAt`. -/
theorem cellPositionsAreRowMajor : Obligations.CellPositionsAreRowMajor := by
  refine ⟨fun i hi => ⟨columnOf_lt i, rowOf_lt hi, Nat.mod_add_div i 64⟩, fun c r hc hr => ?_⟩
  have hcell := cellAt_eq_index c r hc hr
  refine ⟨rfl, ?valid, ?column, ?row, hcell.symm⟩
  case valid => rw [hcell]; exact index_lt c r
  case column => rw [hcell, columnOf_index, Nat.mod_eq_of_lt hc]
  case row => rw [hcell, rowOf_index, Nat.mod_eq_of_lt hr]

/-- Settles O14: appending the six bits of the column multiplies the row by 64. -/
theorem indexBitsAreRowThenColumn : Obligations.IndexBitsAreRowThenColumn := by
  intro n m x y
  apply BitVec.eq_of_toNat_eq
  have hcol : (x.setWidth 6).toNat = x.toNat % 64 := BitVec.toNat_setWidth 6 x
  have hrow : (y.setWidth 5).toNat = y.toNat % 32 := BitVec.toNat_setWidth 5 y
  rw [indexBits_toNat, index_eq, BitVec.toNat_append, ← Nat.shiftLeft_add_eq_or_of_lt (x.setWidth 6).isLt, hcol, hrow,
    Nat.shiftLeft_eq, Nat.add_comm]

/-- Settles O20: a coordinate names the written cell exactly when it is congruent, and the other cells are kept. -/
theorem readAfterWriteThroughAnyCoordinate : Obligations.ReadAfterWriteThroughAnyCoordinate := by
  intro x y x' y' v s t h
  cases (exec_setp s x y v).symm.trans h
  have hread := memReadCell_memWriteCell s.fb (index x y) (index x' y') v (index_lt x' y')
  refine ⟨_, _, exec_getp _ x' y', exec_getp s x' y', ?congruent, ?other⟩ <;> intro hc <;>
    rw [← index_eq_index_iff] at hc
  case congruent => rw [respondR_out_r, respondW_fb, setFb_fb, hread, if_pos hc]
  case other => rw [respondR_out_r, respondR_out_r, respondW_fb, setFb_fb, hread, if_neg hc]

end Sys2Proof.Machine
end

section
/-! ### Proofs: the shape of a rendered text (spec/42_bulk_state_and_render.md R123 to R125) -/

namespace Sys2Proof.Machine

/-! Texts put together from pieces of one length. -/

theorem length_flatMap_range {α : Type} {f : Nat → List α} {k : Nat} (hlen : ∀ i, (f i).length = k) (n : Nat) :
    ((List.range n).flatMap f).length = k * n := by
  simp [List.length_flatMap, hlen, Nat.mul_comm]

/-- Piece `i` stands at `k * i` when the pieces have length `k`. -/
theorem getElem?_flatMap_range {α : Type} {f : Nat → List α} {k : Nat} (hlen : ∀ i, (f i).length = k) {n i j : Nat}
    (hi : i < n) (hj : j < k) : ((List.range n).flatMap f)[k * i + j]? = (f i)[j]? := by
  induction n with
  | zero => omega
  | succ n ih =>
    rw [List.range_succ, List.flatMap_append]
    rcases Nat.lt_succ_iff_lt_or_eq.1 hi with hlt | rfl
    · rw [List.getElem?_append_left, ih hlt]
      rw [length_flatMap_range hlen]
      calc k * i + j < k * (i + 1) := by rw [Nat.mul_succ]; omega
        _ ≤ k * n := Nat.mul_le_mul_left k hlt
    · rw [List.getElem?_append_right] <;> rw [length_flatMap_range hlen]
      · simp
      · omega

/-! With an on string of one character, as long as the blank. -/

section

variable (on : Char) (sep : Text) (g : Grid)

/-- The length of a cell's text. -/
theorem length_cellText (b : Bool) : (cellText [on] sep b).length = sep.length + 1 := by
  cases b <;> simp [cellText, Config.blank]

theorem length_lineText (r : Nat) : (lineText [on] sep g r).length = (sep.length + 1) * 64 + 1 := by
  rw [lineText, List.length_append, length_flatMap_range fun c => length_cellText on sep _]
  rfl

theorem length_renderWith : (renderWith [on] sep g).length = ((sep.length + 1) * 64 + 1) * 32 :=
  length_flatMap_range (length_lineText on sep g) 32

theorem getElem?_renderWith {r j : Nat} (hr : r < 32) (hj : j < (sep.length + 1) * 64 + 1) :
    (renderWith [on] sep g)[((sep.length + 1) * 64 + 1) * r + j]? = (lineText [on] sep g r)[j]? :=
  getElem?_flatMap_range (length_lineText on sep g) hr hj

/-- The line break ends a line. -/
theorem getElem?_renderWith_lineBreak {r : Nat} (hr : r < 32) :
    (renderWith [on] sep g)[((sep.length + 1) * 64 + 1) * r + (sep.length + 1) * 64]? = some '\n' := by
  have hcells := length_flatMap_range (fun c => length_cellText on sep (memReadCell g (cellAt c r))) 64
  rw [getElem?_renderWith on sep g hr (Nat.lt_succ_self _), lineText, Config.columns, ← hcells,
    List.getElem?_append_right le_rfl, Nat.sub_self]
  rfl

/-- The text of the cell at column `c` and row `r`, character by character. -/
theorem getElem?_renderWith_cell {r c j : Nat} (hr : r < 32) (hc : c < 64) (hj : j < sep.length + 1) :
    (renderWith [on] sep g)[((sep.length + 1) * 64 + 1) * r + ((sep.length + 1) * c + j)]? =
      (cellText [on] sep (memReadCell g (cellAt c r)))[j]? := by
  have hcells := length_flatMap_range (fun c => length_cellText on sep (memReadCell g (cellAt c r))) 64
  have hpos : (sep.length + 1) * c + j < (sep.length + 1) * 64 := by
    calc (sep.length + 1) * c + j < (sep.length + 1) * (c + 1) := by rw [Nat.mul_succ]; omega
      _ ≤ (sep.length + 1) * 64 := Nat.mul_le_mul_left _ hc
  rw [getElem?_renderWith on sep g hr (Nat.lt_succ_of_lt hpos), lineText, Config.columns,
    List.getElem?_append_left (hcells ▸ hpos),
    getElem?_flatMap_range (fun c => length_cellText on sep (memReadCell g (cellAt c r))) hc hj]

theorem getElem?_cellText_zero (b : Bool) : (cellText [on] sep b)[0]? = some (if b then on else ' ') := by
  cases b <;> rfl

end

/-- Settles O25: lines, and in a line cells, are pieces of one length. -/
theorem oneCharacterTextHasItsShape : Obligations.OneCharacterTextHasItsShape := by
  intro on sep g
  refine ⟨?length, fun r hr => ⟨getElem?_renderWith_lineBreak on [sep] g hr, fun c hc => ?cell⟩⟩
  case length => rw [length_renderWith, List.length_singleton]
  case cell =>
    have hcell : memReadCell g (cellAt c r) = memReadCell g (64 * r + c) := by
      rw [cellAt, Config.columns, Nat.add_comm]
    refine ⟨?value, ?separator⟩
    case value =>
      refine (getElem?_renderWith_cell on [sep] g hr hc (j := 0) (by simp)).trans ?_
      rw [getElem?_cellText_zero, hcell]
    case separator =>
      refine (getElem?_renderWith_cell on [sep] g hr hc (j := 1) (by simp)).trans ?_
      cases memReadCell g (cellAt c r) <;> rfl

/-- Settles O26: the first character of a cell's text stands at one place in both texts, and tells an on cell from an
off one. -/
theorem renderTellsStatesApart : Obligations.RenderTellsStatesApart := by
  intro on sep g h hblank hlen htext
  obtain ⟨a, rfl⟩ := List.length_eq_one_iff.1 hlen
  have ha : a ≠ ' ' := fun e => hblank (by rw [e]; rfl)
  have hinj {b b' : Bool} (e : (if b then a else ' ') = if b' then a else ' ') : b = b' := by
    cases b <;> cases b' <;> simp_all [eq_comm]
  apply grid_ext
  intro i hi
  have hcell : cellAt (columnOf i) (rowOf i) = i := Nat.mod_add_div i 64
  have hchar (g : Grid) :=
    getElem?_renderWith_cell a sep g (rowOf_lt hi) (columnOf_lt i) (j := 0) (Nat.succ_pos _)
  have hsame := (hchar g).symm.trans (htext ▸ hchar h)
  rw [hcell, getElem?_cellText_zero, getElem?_cellText_zero] at hsame
  exact hinj (Option.some.inj hsame)

/-- Settles O28: an open constant that is not admitted is replaced by an admitted string. -/
theorem onGlyphIsAdmitted : Obligations.OnGlyphIsAdmitted := by
  unfold Obligations.OnGlyphIsAdmitted
  have hok : onGlyphOk onGlyph = true := by
    rw [onGlyph]
    split_ifs with h
    · exact h
    · decide
  simpa [onGlyphOk] using hok

end Sys2Proof.Machine
end

section
/-! ### Proofs: the response pins (spec/30_encoding.md R66, R68) -/

namespace Sys2Proof.Machine

/-- Row `i` as a field of `g_rows` (R68). -/
theorem packRows_extractLsb' (rows : Vector Byte 5) {i : Nat} (hi : i < 5) :
    (packRows rows).extractLsb' (8 * i) 8 = rows[i] := by
  apply BitVec.eq_of_getLsbD_eq
  intro k hk
  simp [hk, packRows_getLsbD rows i k hi hk]

/-- Every response of port W has the code 0x00: the failure side of the status has no member (R69). -/
theorem busW_eq_zero : ∀ a : WriteRsp, busW a = 0x00#8
  | .ack => rfl
  | .status (.ok ()) => rfl

theorem exec_out_w {i : Instr} (hi : i.port = .w) (s : State) :
    ∃ t a, exec i s = .next t ∧ t.out.w = some a := by
  cases i with
  | new => exact ⟨_, _, exec_new s, rfl⟩
  | setp x y v => exact ⟨_, _, exec_setp s x y v, rfl⟩
  | puts => exact ⟨_, _, exec_puts s, rfl⟩
  | _ => cases hi

/-- Settles O31: each operation's response is known, and its bus view is a field of it or 0. -/
theorem payloadsStandOnTheirPins : Obligations.PayloadsStandOnTheirPins := by
  refine ⟨?map, ?write, fun x y s => ⟨_, _, exec_getp s x y, rfl, rfl⟩, fun s => ⟨_, _, exec_gets s, rfl, rfl⟩,
    fun s => ⟨_, _, exec_rend s, rfl, rfl⟩, ?found, ?notFound⟩
  case map =>
    intro x y s
    exact ⟨_, _, exec_map s x y, rfl, indexBits_toNat x y⟩
  case write =>
    intro i s hi
    obtain ⟨t, a, ht, ha⟩ := exec_out_w hi s
    exact ⟨t, a, ht, ha, busW_eq_zero a⟩
  case found =>
    intro sym k s hk
    refine ⟨_, _, exec_glyph s sym, rfl, ?_⟩
    rw [lookup_of_key hk]
    refine ⟨rfl, fun i hi => ?row⟩
    case row => exact (packRows_extractLsb' _ hi).trans (romEntry_getElem glyphRom k i hi)
  case notFound =>
    intro sym s hk
    refine ⟨_, _, exec_glyph s sym, rfl, ?_⟩
    rw [lookup_of_no_key hk, busG]

/-- Settles O30: the key of `A` is 10, and that entry is not open. -/
theorem glyphOfAHasItsRows : Obligations.GlyphOfAHasItsRows := by
  intro s
  have hrows : lookup glyphRom 0x41 = .found #v[0xF0#8, 0x90#8, 0xF0#8, 0x90#8, 0x90#8] :=
    lookup_of_key (k := 10) rfl
  refine ⟨_, _, exec_glyph s 0x41, ?response, rfl, by decide⟩
  case response => rw [respondG_out_g, hrows]

end Sys2Proof.Machine
end

section
/-! ### Proofs: how a written command line is read (spec/30_encoding.md R70) -/

namespace Sys2Proof.Machine

/-! Reading a written text piece by piece. -/

/-- A text that ends the word in hand, if any, before the tokens that follow. -/
def EndsWord (rest : Text) (after : List Token) : Prop := ∀ acc, tokens rest acc = endWord acc after

/-- A text that reads as the given tokens, whatever stands after it and ends a word. -/
def Reads (t : Text) (ts : List Token) : Prop :=
  ∀ rest after, EndsWord rest after → tokens (t ++ rest) [] = ts ++ after

theorem endsWord_comment {comment : Text} (h : IsComment comment) : EndsWord comment [] := by
  intro acc
  rcases h with rfl | ⟨rest, rfl⟩
  · rfl
  · rw [tokens_blank, tokens_comment]; rfl

theorem reads_nil : Reads [] [] := fun _ _ e => e []

theorem reads_word {w : Text} (hne : w ≠ []) (hc : ∀ c ∈ w, c ∉ separators) : Reads w [.word w] := by
  intro rest after e
  rw [tokens_word hc, e, endWord_reverse hne]
  rfl

theorem isUpper_of_separator : ∀ c ∈ separators, c.isUpper = false := by simp [separators]

/-- A mnemonic is written in capital letters, and none of them separates. -/
theorem reads_mnemonic {m : Text} (hne : m ≠ []) (hm : m.all Char.isUpper = true) : Reads m [.word m] := by
  refine reads_word hne fun c hc hsep => ?_
  have hup := List.all_eq_true.1 hm c hc
  rw [isUpper_of_separator c hsep] at hup
  cases hup

theorem reads_number {t : Text} {n : Nat} (h : SpellsNumber t n) : Reads t [.word t] := fun _ _ e => tokens_number h e

theorem reads_quoted (c : Char) : Reads ['\'', c, '\''] [.quoted c] := by
  intro rest after e
  have hquoted := tokens_quoted c rest []
  rwa [e] at hquoted

/-- Operands, each one token, with a comma and a blank between them. -/
theorem reads_intercalate {texts : List Text} {ts : List Token} (h : List.Forall₂ (Reads · [·]) texts ts) :
    Reads ([',', ' '].intercalate texts) (ts.intersperse .comma) := by
  induction h with
  | nil => exact reads_nil
  | @cons t k texts ts ht hrest ih =>
    cases hrest with
    | nil => simpa using ht
    | @cons t' k' texts ts _ _ =>
      intro rest after e
      have hnext : EndsWord (',' :: ' ' :: ([',', ' '].intercalate (t' :: texts) ++ rest))
          (.comma :: ((k' :: ts).intersperse .comma ++ after)) := by
        intro acc
        rw [tokens_comma, tokens_blank, ih rest after e]
        rfl
      simpa using ht _ _ hnext

theorem reads_written {mnemonic : Text} (k : Nat) {operands : List Text} {ts : List Token}
    (hm : Reads mnemonic [.word mnemonic]) (h : Reads ([',', ' '].intercalate operands) ts) :
    Reads (written mnemonic k operands) (.word mnemonic :: ts) := by
  intro rest after e
  have hnext : EndsWord (List.replicate (k + 1) ' ' ++ ([',', ' '].intercalate operands ++ rest)) (ts ++ after) := by
    intro acc
    rw [List.replicate_succ, List.cons_append, tokens_blank, tokens_blanks, h rest after e]
  simpa [written] using hm _ _ hnext

/-- A set of written numbers. -/
theorem reads_writtenSet {indices : List Text} {on : List Nat} (h : List.Forall₂ SpellsNumber indices on) :
    Reads (writtenSet indices) (.opening :: ((indices.map .word).intersperse .comma ++ [.closing])) := by
  intro rest after e
  have hwords : List.Forall₂ (Reads · [·]) indices (indices.map .word) := by
    clear e
    induction h with
    | nil => exact .nil
    | cons hn _ ih => exact .cons (reads_number hn) ih
  have hnext : EndsWord (Char.ofNat 0x7D :: rest) (.closing :: after) := by
    intro acc
    rw [tokens_closing, e]
    rfl
  have hset := reads_intercalate hwords _ _ hnext
  rw [writtenSet, List.cons_append, tokens_opening]
  simpa [endWord] using hset

/-! Parsing the tokens of a command. -/

theorem indexTail_of_spells {indices : List Text} {on : List Nat} (h : List.Forall₂ SpellsNumber indices on)
    (hne : indices ≠ []) :
    indexTail (.comma :: ((indices.map .word).intersperse .comma ++ [.closing])) = some on := by
  induction h with
  | nil => exact absurd rfl hne
  | @cons t n texts on hn hrest ih =>
    obtain ⟨hnum, -⟩ := numberOf_of_spells hn
    cases hrest with
    | nil => simp [indexTail, hnum]
    | cons _ _ => simpa [indexTail, hnum] using ih (by simp)

/-- A set that is not empty has the indices of its tail, when all of them are cells. -/
theorem indexSet_of_ne_closing {ts : List Token} (h : ts ≠ [.closing]) : indexSet (.opening :: ts) =
    (indexTail (.comma :: ts)).bind fun l => if l.all (· < Config.cells) then some l else none := by
  rw [indexSet]
  exact fun e => h (by simpa using e)

theorem indexSet_of_spells {indices : List Text} {on : List Nat} (h : List.Forall₂ SpellsNumber indices on)
    (hlt : ∀ i ∈ on, i < Config.cells) :
    indexSet (.opening :: ((indices.map .word).intersperse .comma ++ [.closing])) = some on := by
  cases h with
  | nil => rfl
  | @cons t n texts on hn hrest =>
    have htail := indexTail_of_spells (.cons hn hrest) (by simp)
    have hall : (n :: on).all (· < Config.cells) = true := by simpa using hlt
    have hne : ((t :: texts).map Token.word).intersperse .comma ++ [.closing] ≠ [.closing] := by
      cases texts <;> simp
    rw [indexSet_of_ne_closing hne, htail]
    exact if_pos hall

theorem bars_notMem_intersperse {ts : List Token} (h : .bars ∉ ts) : .bars ∉ ts.intersperse .comma := by
  induction ts with
  | nil => simp
  | cons k ts ih => cases ts <;> simp_all

/-- The operand of `GLYPH` is one token, a quoted character or a number, and stands for the symbol. -/
theorem reads_glyphOperand {operand : Text} {sym : Nat} (hsym : sym < 256)
    (h : (∃ c : Char, c.toNat = sym ∧ operand = ['\'', c, '\'']) ∨ SpellsNumber operand sym) :
    ∃ tok, Reads operand [tok] ∧ tok ≠ .bars ∧ glyphOperand [tok] = some (.glyph sym) := by
  have hfits : symFits sym = true := symFits_iff.2 hsym
  rcases h with ⟨c, rfl, rfl⟩ | h
  · exact ⟨_, reads_quoted c, by simp, if_pos hfits⟩
  · exact ⟨_, reads_number h, by simp, by simp [glyphOperand, numberOf_of_spells h, hfits]⟩

/-- What a spelled command reads as: tokens without bars, which parse as the command. -/
theorem reads_of_spells {t : Text} {c : Instr × List Nat} (h : SpellsCommand t c) :
    ∃ ts, Reads t ts ∧ .bars ∉ ts ∧ parseCommand ts = some c := by
  obtain ⟨i, on⟩ := c
  cases i with
  | new =>
    obtain ⟨rfl, rfl⟩ := h
    exact ⟨_, reads_mnemonic (by decide) (by decide), by decide, by decide⟩
  | gets =>
    obtain ⟨rfl, rfl⟩ := h
    exact ⟨_, reads_mnemonic (by decide) (by decide), by decide, by decide⟩
  | rend =>
    obtain ⟨rfl, rfl⟩ := h
    exact ⟨_, reads_mnemonic (by decide) (by decide), by decide, by decide⟩
  | map x y =>
    obtain ⟨rfl, k, tx, ty, hx, hy, rfl⟩ := h
    refine ⟨_, reads_written k (reads_mnemonic (by decide) (by decide))
      (reads_intercalate (.cons (reads_number hx) (.cons (reads_number hy) .nil))), by simp, ?_⟩
    simp [parseCommand, twoNumbers, numberOf_of_spells hx, numberOf_of_spells hy]
  | getp x y =>
    obtain ⟨rfl, k, tx, ty, hx, hy, rfl⟩ := h
    refine ⟨_, reads_written k (reads_mnemonic (by decide) (by decide))
      (reads_intercalate (.cons (reads_number hx) (.cons (reads_number hy) .nil))), by simp, ?_⟩
    simp [parseCommand, twoNumbers, numberOf_of_spells hx, numberOf_of_spells hy]
  | setp x y v =>
    obtain ⟨rfl, k, tx, ty, tv, hx, hy, hv, rfl⟩ := h
    refine ⟨_, reads_written k (reads_mnemonic (by decide) (by decide)) (reads_intercalate
      (.cons (reads_number hx) (.cons (reads_number hy) (.cons (reads_number hv) .nil)))), by simp, ?_⟩
    have hbit : bitOf tv = some v := by
      rw [bitOf, (numberOf_of_spells hv).1]
      cases v <;> rfl
    simp [parseCommand, setpOperands, twoNumbers, numberOf_of_spells hx, numberOf_of_spells hy, hbit]
  | puts =>
    obtain ⟨hlt, k, indices, hon, rfl⟩ := h
    refine ⟨_, reads_written k (reads_mnemonic (by decide) (by decide)) (operands := [writtenSet indices])
      (by simpa using reads_writtenSet hon), ?bars, ?_⟩
    case bars => simpa using bars_notMem_intersperse (ts := indices.map .word) (by simp)
    simp [parseCommand, indexSet_of_spells hon hlt]
  | glyph sym =>
    obtain ⟨rfl, hsym, k, operand, hop, rfl⟩ := h
    obtain ⟨tok, htok, hbars, hparse⟩ := reads_glyphOperand hsym hop
    refine ⟨_, reads_written k (reads_mnemonic (by decide) (by decide)) (reads_intercalate (.cons htok .nil)),
      by simpa using hbars.symm, ?_⟩
    simp [parseCommand, hparse]

/-! Cutting a line at the bars. -/

theorem splitBars_of_no_bars {ts : List Token} (h : .bars ∉ ts) : splitBars ts = [ts] := by
  induction ts with
  | nil => rfl
  | cons k ts ih =>
    simp only [List.mem_cons, not_or] at h
    rw [splitBars, ih h.2]
    exact Ne.symm h.1

theorem splitBars_append_bars {ts : List Token} (h : .bars ∉ ts) (us : List Token) :
    splitBars (ts ++ .bars :: us) = ts :: splitBars us := by
  induction ts with
  | nil => rfl
  | cons k ts ih =>
    simp only [List.mem_cons, not_or] at h
    rw [List.cons_append, splitBars, ih h.2]
    exact Ne.symm h.1

/-- A written line is read as the commands it spells. -/
theorem parse_writtenLine {line : List (Text × Instr × List Nat)} {comment : Text} (hne : line ≠ [])
    (h : ∀ c ∈ line, SpellsCommand c.1 c.2) (hc : EndsWord comment []) :
    (splitBars (tokens (writtenLine (line.map fun c => c.1) ++ comment) [])).map parseCommand =
      line.map fun c => some c.2 := by
  induction line with
  | nil => exact absurd rfl hne
  | cons c line ih =>
    obtain ⟨hhead, htail⟩ := List.forall_mem_cons.1 h
    obtain ⟨ts, hreads, hbars, hparse⟩ := reads_of_spells hhead
    cases line with
    | nil => simp [writtenLine, hreads comment [] hc, splitBars_of_no_bars hbars, hparse]
    | cons c' line =>
      have hnext : EndsWord (' ' :: '|' :: '|' :: ' ' :: (writtenLine ((c' :: line).map fun c => c.1) ++ comment))
          (.bars :: tokens (writtenLine ((c' :: line).map fun c => c.1) ++ comment) []) := by
        intro acc
        rw [tokens_blank, tokens_bars, tokens_blank]
        rfl
      have hline : writtenLine ((c :: c' :: line).map fun c => c.1) ++ comment =
          c.1 ++ ' ' :: '|' :: '|' :: ' ' :: (writtenLine ((c' :: line).map fun c => c.1) ++ comment) := by
        simp [writtenLine]
      rw [hline, hreads _ _ hnext, splitBars_append_bars hbars, List.map_cons, ih (by simp) htail, hparse]
      rfl

end Sys2Proof.Machine
end

section
/-! ### Proofs: the step that a command line stands for (spec/30_encoding.md R70) -/

namespace Sys2Proof.Machine

/-- The step presents exactly these commands, without reset, and has the cells of their sets on in `w_data`. -/
structure StepIn.StandsFor (inp : StepIn) (commands : List (Instr × List Nat)) : Prop where
  rst : inp.rst = false
  presented : ∀ c ∈ commands, inp.cmdOn c.1.port = some (encode c.1)
  absent : ∀ p, (∀ c ∈ commands, c.1.port ≠ p) → inp.cmdOn p = none
  data : ∀ i, i < 2048 → (inp.wData.getLsbD i = true ↔ ∃ c ∈ commands, i ∈ c.2)

theorem standsFor_idle : StepIn.idle.StandsFor [] where
  rst := rfl
  presented := by simp
  absent p _ := cmdOn_idle p
  data i _ := by simp [StepIn.idle]

/-- The cells of a set are on in its vector, the others off (R121). -/
theorem gridOf_getLsbD (on : List Nat) {i : Nat} (hi : i < 2048) : (gridOf on).getLsbD i = true ↔ i ∈ on := by
  have hfold (g : Grid) : memReadCell (on.foldl (fun g j => memWriteCell g j true) g) i = true ↔
      memReadCell g i = true ∨ i ∈ on := by
    induction on generalizing g with
    | nil => simp
    | cons j on ih =>
      rw [List.foldl_cons, ih, memReadCell_memWriteCell _ _ _ _ hi]
      by_cases h : i = j <;> simp [h]
  exact (hfold 0#2048).trans (by simp)

theorem cmdOn_wData (inp : StepIn) (d : Grid) (p : Port) :
    ({ inp with wData := d } : StepIn).cmdOn p = inp.cmdOn p := by
  cases p <;> rfl

/-- What placing a command on a free port does. -/
theorem placeCommand_of_free {inp : StepIn} {c : Instr × List Nat} (h : inp.cmdOn c.1.port = none) :
    ∃ inp', placeCommand inp c = some inp' ∧ inp'.rst = inp.rst ∧
      inp'.wData = (if c.1 = .puts then gridOf c.2 else inp.wData) ∧ inp'.cmdOn c.1.port = some (encode c.1) ∧
      ∀ p, p ≠ c.1.port → inp'.cmdOn p = inp.cmdOn p := by
  unfold placeCommand
  rw [h]
  refine ⟨_, rfl, ?_⟩
  by_cases hp : c.1 = .puts
  · rw [if_pos hp, if_pos hp]
    exact ⟨rst_setCmd .., rfl, (cmdOn_wData ..).trans (cmdOn_setCmd_same ..),
      fun p hne => (cmdOn_wData ..).trans (cmdOn_setCmd_other _ _ hne)⟩
  · rw [if_neg hp, if_neg hp]
    exact ⟨rst_setCmd .., wData_setCmd .., cmdOn_setCmd_same .., fun p hne => cmdOn_setCmd_other _ _ hne⟩

/-- A command on a port that none of the others is on. -/
theorem standsFor_placeCommand {inp : StepIn} {cs : List (Instr × List Nat)} {c : Instr × List Nat}
    (h : inp.StandsFor cs) (hfree : ∀ c' ∈ cs, c'.1.port ≠ c.1.port)
    (hcells : ∀ c' ∈ cs ++ [c], c'.1 ≠ .puts → c'.2 = []) :
    ∃ inp', placeCommand inp c = some inp' ∧ inp'.StandsFor (cs ++ [c]) := by
  obtain ⟨inp', hplace, hrst, hdata, hsame, hother⟩ := placeCommand_of_free (h.absent _ hfree)
  simp only [List.forall_mem_append, List.forall_mem_singleton] at hcells
  obtain ⟨hcs, hc⟩ := hcells
  refine ⟨inp', hplace, hrst.trans h.rst, ?presented, ?absent, ?data⟩
  case presented =>
    simp only [List.forall_mem_append, List.forall_mem_singleton]
    exact ⟨fun c' hm => (hother _ (hfree c' hm)).trans (h.presented c' hm), hsame⟩
  case absent =>
    intro p hp
    simp only [List.forall_mem_append, List.forall_mem_singleton] at hp
    exact (hother p hp.2.symm).trans (h.absent p hp.1)
  case data =>
    intro i hi
    have hsplit : (∃ c' ∈ cs ++ [c], i ∈ c'.2) ↔ (∃ c' ∈ cs, i ∈ c'.2) ∨ i ∈ c.2 := by
      simp [or_and_right, exists_or]
    rw [hdata, hsplit]
    by_cases hputs : c.1 = .puts
    · have hnone : ¬∃ c' ∈ cs, i ∈ c'.2 := by
        rintro ⟨c', hm, hmem⟩
        rw [hcs c' hm fun e => hfree c' hm (by rw [e, hputs])] at hmem
        cases hmem
      rw [if_pos hputs, gridOf_getLsbD _ hi, or_iff_right hnone]
    · rw [if_neg hputs, h.data i hi, hc hputs, or_iff_left List.not_mem_nil]

/-- Commands on different ports, placed one after another in a step that stands for the ones before. -/
theorem foldl_placeCommand {cs done : List (Instr × List Nat)} {inp : StepIn} (h : inp.StandsFor done)
    (hports : ((done ++ cs).map fun c => c.1.port).Nodup)
    (hcells : ∀ c ∈ done ++ cs, c.1 ≠ .puts → c.2 = []) :
    ∃ inp', cs.foldl (fun acc c => acc.bind fun inp => placeCommand inp c) (some inp) = some inp' ∧
      inp'.StandsFor (done ++ cs) := by
  induction cs generalizing done inp with
  | nil => exact ⟨inp, rfl, by rwa [List.append_nil]⟩
  | cons c cs ih =>
    have hassoc : done ++ c :: cs = done ++ [c] ++ cs := by simp
    have hfree : ∀ c' ∈ done, c'.1.port ≠ c.1.port := fun c' hm => by
      rw [List.map_append, List.nodup_append] at hports
      exact hports.2.2 _ (List.mem_map_of_mem hm) _ (by simp)
    rw [hassoc] at hports hcells ⊢
    obtain ⟨next, hplace, hnext⟩ :=
      standsFor_placeCommand h hfree fun c' hm => hcells c' (List.mem_append_left _ hm)
    obtain ⟨inp', hfold, hinp'⟩ := ih hnext hports hcells
    refine ⟨inp', ?_, hinp'⟩
    rw [List.foldl_cons, Option.bind_some, hplace, hfold]

/-- The step of a line, from what its commands parse as. -/
theorem assembleLine_of_parse {text : Text} {cs : List (Instr × List Nat)}
    (h : (splitBars (tokens text [])).map parseCommand = cs.map some) :
    assembleLine text = cs.foldl (fun acc c => acc.bind fun inp => placeCommand inp c) (some StepIn.idle) := by
  have hparsed := congrArg
    (List.foldl (fun acc c => acc.bind fun inp => c.bind (placeCommand inp)) (some StepIn.idle)) h
  rwa [List.foldl_map, List.foldl_map] at hparsed

/-- Only `PUTS` has cells on in its `w_data`. -/
theorem no_cells_of_spells {t : Text} {c : Instr × List Nat} (h : SpellsCommand t c) (hc : c.1 ≠ .puts) :
    c.2 = [] := by
  obtain ⟨i, on⟩ := c
  cases i with
  | puts => exact absurd rfl hc
  | _ => exact h.1

/-- Settles O52: a written line is read as the commands it spells, and these are placed one after another. -/
theorem commandLinesStandForTheirSteps : Obligations.CommandLinesStandForTheirSteps := by
  intro line comment hne hspells hports hcomment
  have hparse := parse_writtenLine hne hspells (endsWord_comment hcomment)
  have hports' : ((line.map fun c => c.2).map fun c => c.1.port).Nodup := by rwa [List.map_map]
  have hcells : ∀ c ∈ line.map fun c => c.2, c.1 ≠ .puts → c.2 = [] :=
    List.forall_mem_map.2 fun c hm => no_cells_of_spells (hspells c hm)
  obtain ⟨inp, hfold, hrst, hpresented, habsent, hdata⟩ := foldl_placeCommand standsFor_idle hports' hcells
  have hline := assembleLine_of_parse (hparse.trans List.map_map.symm)
  refine ⟨inp, hline.trans hfold, hrst, List.forall_mem_map.1 hpresented, fun p hp => habsent p ?absent,
    fun i hi => ?data⟩
  case absent => exact List.forall_mem_map.2 hp
  case data => rw [hdata i hi, List.nil_append]; simp only [List.mem_map, exists_exists_and_eq_and]

end Sys2Proof.Machine
end
